-- ==== Sys2Proof/Word.lean ====
section
/-! DEFINITION. The word types of the block, by the widths of 00_scope.md rule R5. -/

namespace Sys2Proof

/-- A symbol, and a packed stream byte: `SYM_W` = 8 bits (R5, R96). -/
abbrev Byte := BitVec 8

/-- An index of a tree memory entry: `IDX_W` = 9 bits (R5). -/
abbrev NodeIdx := BitVec 9

/-- A node word of the tree memory: `NODE_W` = 32 bits (R5, R91). -/
abbrev NodeWord := BitVec 32

/-- The value of `D_NNODES`: 10 bits (R22). -/
abbrev NodeCount := BitVec 10

/-- The LEN field of a code table entry: `LEN_W` = 8 bits (R5, R93). -/
abbrev CodeLen := BitVec 8

/-- The CODE field of a code table entry: `MAXLEN` = 255 bits (R5, R93). -/
abbrev CodeField := BitVec 255

/-- A register port address: `REG_AW` = 4 bits (R5, R41). -/
abbrev RegAddr := BitVec 4

/-- A register port value: `REG_W` = 32 bits (R5, R41). -/
abbrev RegWord := BitVec 32

end Sys2Proof
end

