-- ==== Sys2Proof/Syntax.lean ====
section
/-! DEFINITION. The twelve instructions of spec/opcode_table.json, and the encoded items of 30_encoding.md rule R90 that carry them. -/

namespace Sys2Proof

/-- One constructor for each row of spec/opcode_table.json. A constructor holds every field of its encoding, the
ignored ones too (U7: they are stored as written), so that an instruction and its encoded item determine each other. -/
inductive Instr where
  /-- `INT`, an Internal node: children `left` and `right`; `sym` is ignored (R91, R121). -/
  | int (left right : NodeIdx) (sym : Byte)
  /-- `LEAF`, a Leaf node: symbol `sym`; `left` and `right` are ignored (R91, R124, R125). -/
  | leaf (left right : NodeIdx) (sym : Byte)
  /-- `B0`, the stream bit 0 (R96, R122). -/
  | b0
  /-- `B1`, the stream bit 1 (R96, R123). -/
  | b1
  /-- `D_START`, 1 written to `D_CMD` (R95, R143). -/
  | dStart
  /-- `D_EOS`, 2 written to `D_CMD` (R95, R147). -/
  | dEos
  /-- `D_CLEAR`, 3 written to `D_CMD` (R95, R148). -/
  | dClear
  /-- `P_START`, 1 written to `P_CMD` (R95, R172). -/
  | pStart
  /-- `P_FLUSH`, 2 written to `P_CMD` (R95, R176). -/
  | pFlush
  /-- `P_CLEAR`, 3 written to `P_CMD` (R95, R179). -/
  | pClear
  /-- `CODE`, the table entry of symbol `sym` with LEN not 0 (R93, R173). -/
  | code (sym : Byte) (len : CodeLen) (bits : CodeField)
  /-- `ABSENT`, the table entry of symbol `sym` with LEN 0; `bits` is ignored (R93, R184). -/
  | absent (sym : Byte) (bits : CodeField)
  deriving DecidableEq, Repr

/-- The four kinds of encoded item the block decodes (R90). Each is moved whole on its own port (R66), so no
byte order applies to it. -/
inductive Item where
  /-- Format `N`: a node word of the tree memory. -/
  | node (w : NodeWord)
  /-- Format `K`: the code table entry whose index is the symbol `sym` (R94). -/
  | entry (sym : Byte) (len : CodeLen) (bits : CodeField)
  /-- Format `C`: the value `v` written to the register at `addr`. -/
  | command (addr : RegAddr) (v : RegWord)
  /-- Format `S`: one bit of a packed stream byte. -/
  | bit (b : Bool)
  deriving DecidableEq, Repr

/-- Why an item carries no instruction. -/
inductive DecodeError where
  /-- A node word whose bits 31 to 26 are neither those of `INT` nor those of `LEAF` (R92, R99). -/
  | illegalNode
  /-- A value other than 1, 2, 3 written to `D_CMD` or `P_CMD` (R95, R99). -/
  | reservedCommand
  /-- A write to a register that takes no commands (R41). -/
  | notACommandRegister
  deriving DecidableEq, Repr

end Sys2Proof
end

