-- ==== Sys2Proof/WellFormed.lean ====
section
/-! DEFINITION. Which instructions have an encoding. -/

namespace Sys2Proof

/-- The one check the encodings make on an instruction's fields: a `CODE` entry has LEN from 1 to 255, since LEN 0
is `ABSENT` (R93). Every other field may hold every value of its width (R91, R93). That the children of an `INT`
lie below `D_NNODES` is a check on the loaded tree, `nodeOk`, not on the word alone (R92). -/
def Instr.wellFormed : Instr → Bool
  | .int _ _ _ => true
  | .leaf _ _ _ => true
  | .b0 => true
  | .b1 => true
  | .dStart => true
  | .dEos => true
  | .dClear => true
  | .pStart => true
  | .pFlush => true
  | .pClear => true
  | .code _ len _ => len != 0#8
  | .absent _ _ => true

end Sys2Proof
end

