-- ==== Sys2Proof/Decode.lean ====
section
/-! DEFINITION. The fields of a node word, the decoder from encoded items to instructions, the encoder back, and the
numbering of spec/opcode_table.json. Source: 30_encoding.md rules R91 to R97. -/

namespace Sys2Proof

/-! ### Fields of a node word (R91) -/

/-- `TAG`, bit 31. -/
def nodeTag (w : NodeWord) : Bool := w.getLsbD 31

/-- `LV`, bit 30: the left child is present. -/
def nodeLV (w : NodeWord) : Bool := w.getLsbD 30

/-- `RV`, bit 29: the right child is present. -/
def nodeRV (w : NodeWord) : Bool := w.getLsbD 29

/-- `RSV`, bits 28 to 26, must be 0. -/
def nodeRSV (w : NodeWord) : BitVec 3 := w.extractLsb' 26 3

/-- `LEFT`, bits 25 to 17 (R97 item 1: used as is). -/
def nodeLeft (w : NodeWord) : NodeIdx := w.extractLsb' 17 9

/-- `RIGHT`, bits 16 to 8 (R97 item 1: used as is). -/
def nodeRight (w : NodeWord) : NodeIdx := w.extractLsb' 8 9

/-- `SYM`, bits 7 to 0 (R97 item 2). -/
def nodeSym (w : NodeWord) : Byte := w.extractLsb' 0 8

/-- Bits 31 to 26, which select the instruction (R92). -/
def nodeOpcode (w : NodeWord) : BitVec 6 := w.extractLsb' 26 6

/-- `node_ok(w, n)`: the word is legal in a tree of `n` nodes (R92). -/
def nodeOk (w : NodeWord) (n : NodeCount) : Bool :=
  nodeRSV w == 0#3 &&
    ((!nodeTag w && nodeLV w && nodeRV w &&
        decide ((nodeLeft w).toNat < n.toNat) && decide ((nodeRight w).toNat < n.toNat))
      || (nodeTag w && !nodeLV w && !nodeRV w))

/-! ### Decoder -/

/-- Opcode map of format `N` (R92). -/
def decodeNode (w : NodeWord) : Except DecodeError Instr :=
  if nodeOpcode w = 0b011000#6 then .ok (.int (nodeLeft w) (nodeRight w) (nodeSym w))
  else if nodeOpcode w = 0b100000#6 then .ok (.leaf (nodeLeft w) (nodeRight w) (nodeSym w))
  else .error .illegalNode

/-- Opcode map of format `K` (R93): LEN 0 is `ABSENT`, every other LEN is `CODE`; no entry is illegal. -/
def entryInstr (sym : Byte) (len : CodeLen) (bits : CodeField) : Instr :=
  if len = 0#8 then .absent sym bits else .code sym len bits

/-- Opcode map of format `C` (R95): the whole 32-bit value is compared. -/
def decodeCommand (addr : RegAddr) (v : RegWord) : Except DecodeError Instr :=
  if addr = 0x0#4 then
    if v = 1#32 then .ok .dStart
    else if v = 2#32 then .ok .dEos
    else if v = 3#32 then .ok .dClear
    else .error .reservedCommand
  else if addr = 0x8#4 then
    if v = 1#32 then .ok .pStart
    else if v = 2#32 then .ok .pFlush
    else if v = 3#32 then .ok .pClear
    else .error .reservedCommand
  else .error .notACommandRegister

/-- Format `S` (R96): the bit 0 is `B0`, the bit 1 is `B1`. -/
def bitInstr (b : Bool) : Instr := if b then .b1 else .b0

/-- The decoder: total on every item, refusing by name what carries no instruction. -/
def decode : Item → Except DecodeError Instr
  | .node w => decodeNode w
  | .entry sym len bits => .ok (entryInstr sym len bits)
  | .command addr v => decodeCommand addr v
  | .bit b => .ok (bitInstr b)

/-- The instruction a walk step runs at the node word `w`. DEDUCED (log 9): the walk rules R120, R121, R124, R125 and R131 look at
`TAG` alone, so this is total; on a word that decodes it is the decoded instruction, and a word that does not
decode stands under no walk in a reachable state (R53 item 3). -/
def nodeInstr (w : NodeWord) : Instr :=
  if nodeTag w then .leaf (nodeLeft w) (nodeRight w) (nodeSym w)
  else .int (nodeLeft w) (nodeRight w) (nodeSym w)

/-! ### Encoder -/

/-- A node word from its opcode bits and its fields (R91, R102). -/
def nodeWord (opcode : BitVec 6) (left right : NodeIdx) (sym : Byte) : NodeWord :=
  opcode ++ left ++ right ++ sym

/-- The encoder: the item that carries an instruction, from the same tables (R91, R93, R95, R96). -/
def encode : Instr → Item
  | .int l r y => .node (nodeWord 0b011000#6 l r y)
  | .leaf l r y => .node (nodeWord 0b100000#6 l r y)
  | .b0 => .bit false
  | .b1 => .bit true
  | .dStart => .command 0x0#4 1#32
  | .dEos => .command 0x0#4 2#32
  | .dClear => .command 0x0#4 3#32
  | .pStart => .command 0x8#4 1#32
  | .pFlush => .command 0x8#4 2#32
  | .pClear => .command 0x8#4 3#32
  | .code y len bits => .entry y len bits
  | .absent y bits => .entry y 0#8 bits

/-! ### The numbering of spec/opcode_table.json (log 7)

The table numbers the bits of a row from 0. The formats are told apart by the port an item stands on, which is
in no bit of it; here they are told apart by the item's length in bits: up to 8 a stream bit (bit 0), up to 40 a
node word or a command (bits 31 to 0, and above them in bits 35 to 32 the register address, which the table gives
no bits, so 0, `D_CMD`), longer a code table entry (LEN in bits 7 to 0 as the table's mask has it, CODE in bits
262 to 8, and above them in bits 270 to 263 the symbol, which the table gives no bits). -/

/-- The item that `nbits` bits of value `w` are, in the table's numbering (log 7). -/
def itemOfTableWord (nbits w : Nat) : Item :=
  if nbits ≤ 8 then .bit (w.testBit 0)
  else if nbits ≤ 40 then
    let v := BitVec.ofNat 32 w
    let addr := BitVec.ofNat 4 (w >>> 32)
    if addr = 0x0#4 ∧ (nodeOpcode v = 0b011000#6 ∨ nodeOpcode v = 0b100000#6) then .node v
    else .command addr v
  else .entry (BitVec.ofNat 8 (w >>> 263)) (BitVec.ofNat 8 w) (BitVec.ofNat 255 (w >>> 8))

/-- The instruction the decoder reads from an instruction whose bits are `w` in the numbering of
spec/opcode_table.json; none where it refuses. The rows `D_START` and `P_START` (and the two pairs after them) have
the same 32 bits; without a register address these are the `D_CMD` command (log 7). -/
def decodeTableWord (nbits w : Nat) : Option Instr :=
  match decode (itemOfTableWord nbits w) with
  | .ok i => some i
  | .error _ => none

/-- Length and value of an item in the table's numbering. -/
def itemTableWord : Item → Nat × Nat
  | .node w => (32, w.toNat)
  | .entry sym len bits => (272, len.toNat + bits.toNat * 2 ^ 8 + sym.toNat * 2 ^ 263)
  | .command addr v => (40, v.toNat + addr.toNat * 2 ^ 32)
  | .bit b => (8, b.toNat)

/-- Length and value of an instruction's item in the table's numbering. -/
def encodeTableWord (i : Instr) : Nat × Nat := itemTableWord (encode i)

end Sys2Proof
end

