-- ==== Sys2Proof/Config.lean ====
section
/-! DEFINITION. The sizes of 00_scope.md rule R5 and the values the spec leaves open: the contents of the two
memories at power-up (93_implementation_defined.md U9). -/

namespace Sys2Proof.Config

/-- `TM_DEPTH`: entries of the tree memory (R5, R21), and the largest legal `D_NNODES` (R44). -/
def tmDepth : Nat := 512

/-- `CT_DEPTH`: entries of the code table (R5, R32). -/
def ctDepth : Nat := 256

/-- The largest value a write of `D_ROOT` takes (R45). -/
def maxRoot : Nat := 511

/-- DESIGN CHOICE (log 1), safe. FREE VALUE: what tree memory entry `i` holds until a `TM_WRITE` writes it
(R21, R261, U9: "any value"). It has no body, so no proof can rest on what it is. -/
opaque tmPowerUp : Nat → NodeWord

/-- DESIGN CHOICE (log 1), safe. FREE VALUE: the LEN field of code table entry `s` until a `CT_WRITE` writes it (R32, U9). -/
opaque ctPowerUpLen : Nat → CodeLen

/-- DESIGN CHOICE (log 1), safe. FREE VALUE: the CODE field of code table entry `s` until a `CT_WRITE` writes it (R32, U9). -/
opaque ctPowerUpCode : Nat → CodeField

end Sys2Proof.Config
end

