-- ==== Sys2Proof/Machine/State.lean ====
section
/-! DEFINITION. The state of the block, as plain data: 10_state.md rules R20 to R38, and the host's side of the
interface, which the spec calls inputs (R20). -/

namespace Sys2Proof.Machine

/-! ### Control states and errors

DEDUCED (log 10): the values the spec never takes (R24, R33, R231, R53 item 7) are not representable, as U13 allows. -/

/-- `D_STATE`, the decoder's control state (R24). -/
inductive DState where
  | idle | validate | run | done | error
  deriving DecidableEq, Repr

/-- `P_STATE`, the bitpacker's control state (R33). -/
inductive PState where
  | idle | run | done | error
  deriving DecidableEq, Repr

/-- What `D_ERRCODE` holds (R30, R231). -/
inductive DError where
  | noError | malformedTree | streamCorruption | noTree | treeMismatch
  deriving DecidableEq, Repr

/-- What `P_ERRCODE` holds (R37, R231). -/
inductive PError where
  | noError | unknownSymbol
  deriving DecidableEq, Repr

/-! ### The units -/

/-- A memory of whole entries (R67, R68): pairs of an index and an entry, indices strictly rising. An index that is
not listed has never been written and holds no value of its own (R21, R32; log 1, log 11). -/
abbrev Memory (α : Type) := List (Nat × α)

/-- An entry of the code table (R32, R93). -/
structure CodeEntry where
  len  : CodeLen
  bits : CodeField
  deriving DecidableEq, Repr

/-- The decoder unit's state (R21 to R31). -/
structure Decoder where
  /-- `TM` (R21). -/
  tm      : Memory NodeWord
  /-- `D_NNODES` (R22). -/
  nnodes  : NodeCount
  /-- `D_ROOT` (R23). -/
  root    : NodeIdx
  /-- `D_STATE` (R24). -/
  state   : DState
  /-- `VPTR` (R25). -/
  vptr    : NodeIdx
  /-- `CUR` (R26). -/
  cur     : NodeIdx
  /-- `MID` (R27). -/
  mid     : Bool
  /-- `SHREG` (R28). -/
  shreg   : Byte
  /-- `BITCNT` (R28). -/
  bitcnt  : BitVec 4
  /-- `EOS` (R29). -/
  eos     : Bool
  /-- `D_ERRCODE` (R30). -/
  errcode : DError
  /-- `D_ERRINFO` (R30). -/
  errinfo : NodeIdx
  /-- `OUT`, oldest symbol first (R31). -/
  out     : List Byte
  deriving DecidableEq, Repr

/-- The bitpacker unit's state (R32 to R38). -/
structure Packer where
  /-- `CT` (R32). -/
  ct      : Memory CodeEntry
  /-- `P_STATE` (R33). -/
  state   : PState
  /-- `CBUF` (R34). -/
  cbuf    : CodeField
  /-- `CLEN` (R34). -/
  clen    : CodeLen
  /-- `ACC` (R35). -/
  acc     : Byte
  /-- `ACCLEN` (R35). -/
  acclen  : BitVec 4
  /-- `FLUSH` (R36). -/
  flush   : Bool
  /-- `P_ERRCODE` (R37). -/
  errcode : PError
  /-- `P_ERRINFO` (R37). -/
  errinfo : Byte
  /-- `BYTES`, oldest byte first (R38). -/
  bytes   : List Byte
  deriving DecidableEq, Repr

/-! ### The host's side -/

/-- What the host does next, or whose turn it is (R7 item 3, R72 item 2). DESIGN CHOICE (log 3). -/
inductive Event where
  /-- `TM_WRITE(i, w)` (R61, R140). -/
  | tmWrite (i : NodeIdx) (w : NodeWord)
  /-- `CT_WRITE(s, l, c)` (R62, R171). -/
  | ctWrite (sym : Byte) (len : CodeLen) (bits : CodeField)
  /-- `REG_WRITE(a, v)` (R63, R41). -/
  | regWrite (a : RegAddr) (v : RegWord)
  /-- `REG_READ(a)` (R63, R150). -/
  | regRead (a : RegAddr)
  /-- `IN_PUSH(byte)`: the byte is offered until it is accepted (R64, R128). -/
  | inPush (b : Byte)
  /-- `SYM_PUSH(s)`: the symbol is offered until it is accepted (R64, R173, R184). -/
  | symPush (sym : Byte)
  /-- `rst` (R260). -/
  | rst
  /-- The host sets its pin `out_ready` (R64). -/
  | setOutReady (b : Bool)
  /-- The host sets its pin `byte_ready` (R64). -/
  | setByteReady (b : Bool)
  /-- The decoder takes its own enabled step, if it has one (R120, R144). -/
  | decoderTurn
  /-- The bitpacker takes its own enabled step, if it has one (R170). -/
  | packerTurn
  /-- The host waits until `d_done` or `d_error` is 1 (R151 step 6). -/
  | awaitDecoder
  /-- The host waits until `p_done` or `p_error` is 1 (R183 step 5). -/
  | awaitPacker
  deriving DecidableEq, Repr

/-- The host's side of the interface: inputs of the block, and what the host was given back by register reads. These
are the MODEL's own fields, not the spec's state (R20; log 3, log 5, log 6). -/
structure HostSide where
  /-- What the host does, the next first (log 3). -/
  agenda    : List Event
  /-- The pin `out_ready` (R64). -/
  outReady  : Bool
  /-- The pin `byte_ready` (R64). -/
  byteReady : Bool
  /-- The values `REG_READ` has returned, oldest first (log 6). -/
  reads     : List RegWord
  deriving DecidableEq, Repr

/-- The whole state: two disjoint units (R20) and the host's side. -/
structure State where
  dec  : Decoder
  pack : Packer
  host : HostSide
  deriving DecidableEq, Repr

/-! ### Outcomes -/

/-- Reasons for which the machine stops. There is none (log 15): every error of R231 is a state of the block that
`raise` enters (R239), and a unit that can do nothing waits (R129, R170, U11). -/
inductive Fault
  deriving DecidableEq, Repr

/-- Reasons for which an instruction has no meaning. -/
inductive Refusal where
  /-- Raised by an arm of `exec` whose instruction is not modelled yet; safe. No arm raises it. -/
  | notModelled (mnemonic : String)
  deriving DecidableEq, Repr

/-! ### Reset -/

/-- The decoder after reset, with the tree memory `tm`, which `rst` does not change (R51, R261). -/
def Decoder.atReset (tm : Memory NodeWord) : Decoder where
  tm := tm
  nnodes := 0
  root := 0
  state := .idle
  vptr := 0
  cur := 0
  mid := false
  shreg := 0
  bitcnt := 0
  eos := false
  errcode := .noError
  errinfo := 0
  out := []

/-- The bitpacker after reset, with the code table `ct`, which `rst` does not change (R51, R261). -/
def Packer.atReset (ct : Memory CodeEntry) : Packer where
  ct := ct
  state := .idle
  cbuf := 0
  clen := 0
  acc := 0
  acclen := 0
  flush := false
  errcode := .noError
  errinfo := 0
  bytes := []

/-- The machine after power-up and reset (R51, R260, R261): no entry of TM or CT written yet (log 1), both units
in IDLE. DESIGN CHOICE (log 3, log 5, log 6), unsafe: the host's agenda is empty, its ready pins are 1 and it has read nothing. -/
def State.reset : State where
  dec := Decoder.atReset []
  pack := Packer.atReset []
  host := { agenda := [], outReady := true, byteReady := true, reads := [] }

end Sys2Proof.Machine
end

