-- ==== Sys2Proof/Machine/Ops.lean ====
section
/-! DEFINITION. The shared operations: the two memories, the one-bit shift, a step of one unit inside the whole state, `raise`
and the return from an error. -/

namespace Sys2Proof.Machine

/-! ### Memories (R21, R32, R67, R68; log 11) -/

/-- The entry written last at index `i`; none where nothing has been written since power-up. -/
def Memory.read? {α : Type} : Memory α → Nat → Option α
  | [], _ => none
  | (k, v) :: m, i => if k = i then some v else Memory.read? m i

/-- Write of the whole entry `i` (R68). Indices stay strictly rising. -/
def Memory.write {α : Type} : Memory α → Nat → α → Memory α
  | [], i, v => [(i, v)]
  | (k, u) :: m, i, v =>
    if i < k then (i, v) :: (k, u) :: m
    else if i = k then (i, v) :: m
    else (k, u) :: Memory.write m i v

/-- Every index of the memory lies in `lo .. bound - 1`, and they are strictly rising. -/
def Memory.wfFrom {α : Type} (bound : Nat) : Nat → Memory α → Bool
  | _, [] => true
  | lo, (k, _) :: m => decide (lo ≤ k) && decide (k < bound) && Memory.wfFrom bound (k + 1) m

/-- The canonical form: indices strictly rising and below `bound`. An unlisted index reads as no value, so no
listed entry can equal what an unlisted one reads as. -/
def Memory.wf {α : Type} (bound : Nat) (m : Memory α) : Bool := Memory.wfFrom bound 0 m

/-- `TM[i]` (R12). An entry never written since power-up holds a free value (U9; log 1). -/
def Decoder.tmRead (d : Decoder) (i : NodeIdx) : NodeWord :=
  (Memory.read? d.tm i.toNat).getD (Config.tmPowerUp i.toNat)

/-- `CT[s]` (R12). An entry never written since power-up holds a free value (U9; log 1). -/
def Packer.ctRead (p : Packer) (sym : Byte) : CodeEntry :=
  (Memory.read? p.ct sym.toNat).getD ⟨Config.ctPowerUpLen sym.toNat, Config.ctPowerUpCode sym.toNat⟩

/-- `TM[i] <- w` (R12). -/
def Decoder.tmStore (d : Decoder) (i : NodeIdx) (w : NodeWord) : Decoder :=
  { d with tm := Memory.write d.tm i.toNat w }

/-- `CT[s] <- (l, c)` (R12). -/
def Packer.ctStore (p : Packer) (sym : Byte) (len : CodeLen) (bits : CodeField) : Packer :=
  { p with ct := Memory.write p.ct sym.toNat ⟨len, bits⟩ }

/-! ### Bits -/

/-- The byte `v[6:0], b`: shift left by one, keep 8 bits, `b` enters at bit 0 (R28, R35). -/
def shiftIn (v : Byte) (b : Bool) : Byte := (v.setWidth 7).concat b

/-! ### One unit steps, the other and the host's side stay as they are (R20) -/

/-- The decoder steps by `f`. -/
def State.mapDec (s : State) (f : Decoder → Decoder) : State := { s with dec := f s.dec }

/-- The bitpacker steps by `f`. -/
def State.mapPack (s : State) (f : Packer → Packer) : State := { s with pack := f s.pack }

/-- The host's agenda becomes `a`. -/
def State.withAgenda (s : State) (a : List Event) : State := { s with host := { s.host with agenda := a } }

/-! ### Taking an error, and the return from one (R239, R242) -/

/-- `raise E(info)` in the decoder: the state, the code and the info change, nothing else does (R239). -/
def Decoder.raise (d : Decoder) (e : DError) (info : NodeIdx) : Decoder :=
  { d with state := .error, errcode := e, errinfo := info }

/-- `raise E(info)` in the bitpacker (R239). -/
def Packer.raise (p : Packer) (e : PError) (info : Byte) : Packer :=
  { p with state := .error, errcode := e, errinfo := info }

/-- The acknowledgement of a run's end: back to IDLE, code and info zeroed, nothing else changes (R148, R242). -/
def Decoder.acknowledge (d : Decoder) : Decoder :=
  { d with state := .idle, errcode := .noError, errinfo := 0 }

/-- The acknowledgement of a run's end in the bitpacker (R179, R242). -/
def Packer.acknowledge (p : Packer) : Packer :=
  { p with state := .idle, errcode := .noError, errinfo := 0 }

/-- `rst`: every register and flag takes its reset value, the traces are emptied, TM and CT stay (R260, R261). The host's
side is no state of the block and stays (log 3). -/
def State.rst (s : State) : State :=
  { s with dec := Decoder.atReset s.dec.tm, pack := Packer.atReset s.pack.ct }

end Sys2Proof.Machine
end

