-- ==== Sys2Proof/Machine/Operands.lean ====
section
/-! DEFINITION. Every operand the instructions take, and where it is taken from: 30_encoding.md rule R97, 40_decoder_walk.md rule R134. -/

namespace Sys2Proof.Machine

/-- The node word at `CUR`, which a walk or an emission executes (R134). -/
def Decoder.curWord (d : Decoder) : NodeWord := d.tmRead d.cur

/-- The node word at `VPTR`, which the validation scan checks (R134). -/
def Decoder.scanWord (d : Decoder) : NodeWord := d.tmRead d.vptr

/-- `TAG(TM[CUR])`: the node at `CUR` holds a symbol (R91). -/
def Decoder.curTag (d : Decoder) : Bool := nodeTag d.curWord

/-- The next stream bit, `SHREG[7]` (R28). -/
def Decoder.nextBit (d : Decoder) : Bool := d.shreg.getLsbD 7

/-- The bit of the current code that `P_SHIFT` appends, `CBUF[CLEN - 1]` (R34, R174). -/
def Packer.nextCodeBit (p : Packer) : Bool := p.cbuf.getLsbD (p.clen.toNat - 1)

/-- Stream bit `j` of the byte `b`, counting from 0 for the first: `b[7 - j]` (R97 item 5). -/
def streamBit (b : Byte) (j : Nat) : Bool := b.getLsbD (7 - j)

/-- The eight stream bits of a byte, first bit first (R65, R96). -/
def streamBits (b : Byte) : List Bool := (List.range 8).map (streamBit b)

/-- Bit `k` of a code, counting from 0 for the first: `CODE[LEN - 1 - k]` (R97 item 3). -/
def codeBit (len : CodeLen) (bits : CodeField) (k : Nat) : Bool := bits.getLsbD (len.toNat - 1 - k)

/-- The bit string of a code table entry, first bit first: `CODE[LEN-1] .. CODE[0]` (R97 item 3, R181). -/
def codeBits (len : CodeLen) (bits : CodeField) : List Bool :=
  (List.range len.toNat).map (codeBit len bits)

/-- The node instruction at `CUR` (R121, R124, R125; log 8, log 9). -/
def Decoder.fetchNode (d : Decoder) : Instr := nodeInstr d.curWord

/-- The stream bit instruction that a walk consumes next (R96; log 8). -/
def Decoder.fetchBit (d : Decoder) : Instr := bitInstr d.nextBit

/-- The table entry instruction that a push of `sym` executes: the lookup `CT[sym]` (R134, R173, R184). -/
def Packer.fetchEntry (p : Packer) (sym : Byte) : Instr :=
  entryInstr sym (p.ctRead sym).len (p.ctRead sym).bits

end Sys2Proof.Machine
end

