-- ==== Sys2Proof/Machine/Flags.lean ====
section
/-! DEFINITION. The conditions that enable a step, the output pins and status lines, and the status registers' views of the
state: 40_decoder_walk.md rule R120, 42_bitpacker.md rule R170, 20_memory.md rule R64, 60_exceptions.md rule R243,
10_state.md rules R43 and R48. The three flags MID, EOS and FLUSH are fields of the units (R40). -/

namespace Sys2Proof.Machine

/-! ### Which step is enabled -/

/-- `emit_pending` (R120). -/
def Decoder.emitPending (d : Decoder) : Bool := decide (d.state = .run) && d.mid && d.curTag

/-- `D_WALK` is enabled: RUN, no emit pending, a bit to consume (R120). -/
def Decoder.walkEnabled (d : Decoder) : Bool := decide (d.state = .run) && !d.emitPending && decide (d.bitcnt ≠ 0)

/-- `D_END` is enabled: RUN, no emit pending, no bit left and none to come (R120, R126). -/
def Decoder.endEnabled (d : Decoder) : Bool :=
  decide (d.state = .run) && !d.emitPending && decide (d.bitcnt = 0) && d.eos

/-- The decoder has an own step that can happen now; an emission also needs `out_ready` (R64, R120, R124, R144). -/
def Decoder.canStep (d : Decoder) (outReady : Bool) : Bool :=
  decide (d.state = .validate) || (d.emitPending && outReady) || d.walkEnabled || d.endEnabled

/-- `P_OUT` is enabled (R170, R175). -/
def Packer.outEnabled (p : Packer) : Bool := decide (p.state = .run) && decide (p.acclen = 8)

/-- `P_SHIFT` is enabled (R170, R174). -/
def Packer.shiftEnabled (p : Packer) : Bool := decide (p.state = .run) && decide (p.acclen < 8) && decide (p.clen ≠ 0)

/-- `P_PAD` is enabled (R170, R177). -/
def Packer.padEnabled (p : Packer) : Bool :=
  decide (p.state = .run) && decide (p.acclen < 8) && decide (p.clen = 0) && p.flush && decide (p.acclen ≠ 0)

/-- `P_FINISH` is enabled (R170, R178). -/
def Packer.finishEnabled (p : Packer) : Bool :=
  decide (p.state = .run) && decide (p.acclen = 0) && decide (p.clen = 0) && p.flush

/-- The bitpacker has an own step that can happen now; a byte transfer also needs `byte_ready` (R64, R170, R175). -/
def Packer.canStep (p : Packer) (byteReady : Bool) : Bool :=
  (p.outEnabled && byteReady) || p.shiftEnabled || p.padEnabled || p.finishEnabled

/-! ### Pins (R64) -/

/-- `in_ready`. -/
def Decoder.inReady (d : Decoder) : Bool :=
  decide (d.state = .run) && !d.emitPending && decide (d.bitcnt = 0) && !d.eos

/-- `out_valid`: an emit is pending. -/
def Decoder.outValid (d : Decoder) : Bool := d.emitPending

/-- `out_sym`, meaningful while `out_valid` is 1 (R124). -/
def Decoder.outSym (d : Decoder) : Byte := nodeSym d.curWord

/-- `sym_ready`. -/
def Packer.symReady (p : Packer) : Bool :=
  decide (p.state = .run) && decide (p.clen = 0) && !p.flush && decide (p.acclen < 8)

/-- `byte_valid`. -/
def Packer.byteValid (p : Packer) : Bool := p.outEnabled

/-- `byte_data`, meaningful while `byte_valid` is 1 (R175). -/
def Packer.byteData (p : Packer) : Byte := p.acc

/-! ### Status lines (R243) -/

/-- `d_done`. -/
def Decoder.doneLine (d : Decoder) : Bool := decide (d.state = .done)

/-- `d_error`. -/
def Decoder.errorLine (d : Decoder) : Bool := decide (d.state = .error)

/-- `p_done`. -/
def Packer.doneLine (p : Packer) : Bool := decide (p.state = .done)

/-- `p_error`. -/
def Packer.errorLine (p : Packer) : Bool := decide (p.state = .error)

/-! ### Numeric codes -/

/-- The value of `D_STATE` (R24). -/
def DState.bits : DState → BitVec 3
  | .idle => 0
  | .validate => 1
  | .run => 2
  | .done => 3
  | .error => 4

/-- The value of `P_STATE` (R33). -/
def PState.bits : PState → BitVec 3
  | .idle => 0
  | .run => 2
  | .done => 3
  | .error => 4

/-- The code in `D_ERRCODE` (R231). -/
def DError.bits : DError → BitVec 4
  | .noError => 0
  | .malformedTree => 1
  | .streamCorruption => 2
  | .noTree => 4
  | .treeMismatch => 5

/-- The code in `P_ERRCODE` (R231). -/
def PError.bits : PError → BitVec 4
  | .noError => 0
  | .unknownSymbol => 3

/-! ### Status registers -/

/-- `D_STATUS` (R43), from bit 31 down: reserved, `CUR`, `BITCNT`, `ERRCODE`, reserved, `MID`, `EOS`, `STATE`. -/
def Decoder.status (d : Decoder) : RegWord :=
  0#7 ++ d.cur ++ d.bitcnt ++ d.errcode.bits ++ 0#3 ++ BitVec.ofBool d.mid ++ BitVec.ofBool d.eos ++ d.state.bits

/-- `P_STATUS` (R48), from bit 31 down: `ACC`, `CLEN`, `ACCLEN`, `ERRCODE`, reserved, `FLUSH`, `STATE`. -/
def Packer.status (p : Packer) : RegWord :=
  p.acc ++ p.clen ++ p.acclen ++ p.errcode.bits ++ 0#4 ++ BitVec.ofBool p.flush ++ p.state.bits

end Sys2Proof.Machine
end

