-- ==== Sys2Proof/Machine/Control.lean ====
section
/-! DEFINITION. The decoder around the walk: loading, `D_START` and the validation scan, `D_EOS`, `D_CLEAR`. Source:
41_decoder_control.md. A command or a write in a state where it is not taken changes nothing (R149). -/

namespace Sys2Proof.Machine

/-! ### Loading -/

/-- `TM_WRITE(i, w)` (R140): taken in IDLE only. -/
def Decoder.tmWrite (i : NodeIdx) (w : NodeWord) (d : Decoder) : Decoder :=
  if d.state = .idle then d.tmStore i w else d

/-- A write of `v` to `D_NNODES` (R44, R141): taken in IDLE with `v <= 512`. -/
def Decoder.writeNnodes (v : RegWord) (d : Decoder) : Decoder :=
  if d.state = .idle ∧ v.toNat ≤ Config.tmDepth then { d with nnodes := v.setWidth 10 } else d

/-- A write of `v` to `D_ROOT` (R45, R142): taken in IDLE with `v <= 511`. -/
def Decoder.writeRoot (v : RegWord) (d : Decoder) : Decoder :=
  if d.state = .idle ∧ v.toNat ≤ Config.maxRoot then { d with root := v.setWidth 9 } else d

/-! ### Commands -/

/-- The initialisation that `D_START` does (R143). -/
def Decoder.initRun (d : Decoder) : Decoder :=
  { d with
    out := [], eos := false, mid := false, shreg := 0, bitcnt := 0,
    errcode := .noError, errinfo := 0, vptr := 0, cur := d.root }

/-- There is no tree to decode with: no node, or a root that names none (R143, R235). -/
def Decoder.noTree (d : Decoder) : Bool := decide (d.nnodes = 0) || decide (d.nnodes.toNat ≤ d.root.toNat)

/-- `D_START` (R143): taken in IDLE. The raise overrides the clearing of code and info. -/
def execDStart (s : State) : Host.Outcome State Fault Refusal :=
  .next (s.mapDec fun d =>
    if d.state = .idle then
      if d.noTree then d.initRun.raise .noTree d.root else { d.initRun with state := .validate }
    else d)

/-- `D_EOS` (R147): taken in VALIDATE and RUN. -/
def execDEos (s : State) : Host.Outcome State Fault Refusal :=
  .next (s.mapDec fun d =>
    if d.state = .validate ∨ d.state = .run then { d with eos := true } else d)

/-- `D_CLEAR` (R148): taken in DONE and ERROR. -/
def execDClear (s : State) : Host.Outcome State Fault Refusal :=
  .next (s.mapDec fun d =>
    if d.state = .done ∨ d.state = .error then d.acknowledge else d)

/-! ### The validation scan -/

/-- `D_VSTEP` (R144). The comparison with `D_NNODES` is on 10-bit values. -/
def Decoder.vStep (d : Decoder) : Decoder :=
  if d.state = .validate then
    if nodeOk d.scanWord d.nnodes then
      if d.vptr.setWidth 10 + 1#10 = d.nnodes then { d with state := .run } else { d with vptr := d.vptr + 1 }
    else d.raise .malformedTree d.vptr
  else d

end Sys2Proof.Machine
end

