-- ==== Sys2Proof/Machine/Pack.lean ====
section
/-! DEFINITION. The bitpacker unit: `CODE`, `ABSENT`, the commands `P_START`, `P_FLUSH`, `P_CLEAR`, and its own steps. Source: 42_bitpacker.md.
A command, a write or a step whose condition is false changes nothing (R12, R180; log 2). -/

namespace Sys2Proof.Machine

/-! ### Loading -/

/-- `CT_WRITE(s, l, c)` (R171): taken in IDLE only. -/
def Packer.ctWrite (sym : Byte) (len : CodeLen) (bits : CodeField) (p : Packer) : Packer :=
  if p.state = .idle then p.ctStore sym len bits else p

/-! ### Commands -/

/-- `P_START` (R172): taken in IDLE. -/
def execPStart (s : State) : Host.Outcome State Fault Refusal :=
  .next (s.mapPack fun p =>
    if p.state = .idle then
      { p with
        bytes := [], acc := 0, acclen := 0, cbuf := 0, clen := 0, flush := false,
        errcode := .noError, errinfo := 0, state := .run }
    else p)

/-- `P_FLUSH` (R176): taken in RUN. -/
def execPFlush (s : State) : Host.Outcome State Fault Refusal :=
  .next (s.mapPack fun p => if p.state = .run then { p with flush := true } else p)

/-- `P_CLEAR` (R179): taken in DONE and ERROR. -/
def execPClear (s : State) : Host.Outcome State Fault Refusal :=
  .next (s.mapPack fun p => if p.state = .done ∨ p.state = .error then p.acknowledge else p)

/-! ### Table entries, executed by an accepted `SYM_PUSH` -/

/-- `CODE` (R173): the entry's code becomes the code in progress. No bit is appended yet. -/
def execCode (_sym : Byte) (len : CodeLen) (bits : CodeField) (s : State) : Host.Outcome State Fault Refusal :=
  .next (s.mapPack fun p => if p.symReady ∧ len ≠ 0 then { p with cbuf := bits, clen := len } else p)

/-- `ABSENT` (R184): UnknownSymbol with the symbol as its info (R234). -/
def execAbsent (sym : Byte) (_bits : CodeField) (s : State) : Host.Outcome State Fault Refusal :=
  .next (s.mapPack fun p => if p.symReady then p.raise .unknownSymbol sym else p)

/-! ### The unit's own steps -/

/-- One bit enters the byte being assembled (R35). -/
def Packer.appendBit (p : Packer) (b : Bool) : Packer :=
  { p with acc := shiftIn p.acc b, acclen := p.acclen + 1 }

/-- `P_SHIFT` (R174). -/
def Packer.shift (p : Packer) : Packer :=
  if p.shiftEnabled then { p.appendBit p.nextCodeBit with clen := p.clen - 1 } else p

/-- `P_OUT` (R175). -/
def Packer.transfer (p : Packer) : Packer :=
  if p.outEnabled then { p with bytes := p.bytes ++ [p.acc], acc := 0, acclen := 0 } else p

/-- `P_PAD` (R177). -/
def Packer.pad (p : Packer) : Packer := if p.padEnabled then p.appendBit false else p

/-- `P_FINISH` (R178). -/
def Packer.finish (p : Packer) : Packer := if p.finishEnabled then { p with state := .done } else p

/-- The bitpacker's own step, by the priority of R170; a byte transfer also needs `byte_ready` (R64). -/
def Packer.step (byteReady : Bool) (p : Packer) : Packer :=
  if p.outEnabled then (if byteReady then p.transfer else p)
  else if p.shiftEnabled then p.shift
  else if p.padEnabled then p.pad
  else if p.finishEnabled then p.finish
  else p

end Sys2Proof.Machine
end

