-- ==== Sys2Proof/Machine/Walk.lean ====
section
/-! DEFINITION. The decoder in RUN: the node-word instructions `INT` and `LEAF`, the stream-bit instructions `B0` and `B1`, the end
of a run and the byte input. Source: 40_decoder_walk.md.

A `D_WALK` is at once the node word at `CUR` and the stream bit at `SHREG[7]` (log 8): `INT` and `LEAF` take the word from
the instruction and the bit from `SHREG`; `B0` and `B1` take the word from TM and run where `SHREG[7]` is their bit. Where the
step's condition is false nothing happens: the state is answered unchanged (R12; log 2). -/

namespace Sys2Proof.Machine

/-! ### Parts of the walk -/

/-- What every walk step that does not raise does: consume `SHREG[7]`, shift, count down, set MID (R27, R28). -/
def Decoder.consumeBit (d : Decoder) : Decoder :=
  { d with shreg := shiftIn d.shreg false, bitcnt := d.bitcnt - 1, mid := true }

/-- A walk step to the node `child` (R121). -/
def Decoder.descend (d : Decoder) (child : NodeIdx) : Decoder := { d.consumeBit with cur := child }

/-- The emission of `sym` and the return to the root (R124). No bit is consumed. -/
def Decoder.emit (d : Decoder) (sym : Byte) : Decoder :=
  { d with out := d.out ++ [sym], cur := d.root, mid := false }

/-- A walk step at a Leaf root with the bit `b`: 0 is the lone symbol's code, 1 is TreeMismatch, not consumed (R125, R236). -/
def Decoder.walkAtLeaf (d : Decoder) (b : Bool) : Decoder :=
  if b then d.raise .treeMismatch d.cur else d.consumeBit

/-! ### Meanings of the instructions -/

/-- `INT` (R121): a walk step at an Internal node with children `left` and `right`. -/
def execInt (left right : NodeIdx) (_sym : Byte) (s : State) : Host.Outcome State Fault Refusal :=
  .next (s.mapDec fun d =>
    if d.walkEnabled ∧ ¬d.curTag then d.descend (if d.nextBit then right else left) else d)

/-- `LEAF`: reached by a walk it is emitted (R124); at the root of a single-leaf tree, with nothing pending, it takes
one bit (R125). -/
def execLeaf (_left _right : NodeIdx) (sym : Byte) (s : State) : Host.Outcome State Fault Refusal :=
  .next (s.mapDec fun d =>
    if d.emitPending then d.emit sym
    else if d.walkEnabled ∧ d.curTag then d.walkAtLeaf d.nextBit
    else d)

/-- `B0` (R122), where the next bit is 0: to the left child; at a single-leaf root the code of its symbol (R125). -/
def execB0 (s : State) : Host.Outcome State Fault Refusal :=
  .next (s.mapDec fun d =>
    if d.walkEnabled ∧ ¬d.nextBit then
      if d.curTag then d.walkAtLeaf false else d.descend (nodeLeft d.curWord)
    else d)

/-- `B1` (R123), where the next bit is 1: to the right child; at a single-leaf root TreeMismatch (R125). -/
def execB1 (s : State) : Host.Outcome State Fault Refusal :=
  .next (s.mapDec fun d =>
    if d.walkEnabled ∧ d.nextBit then
      if d.curTag then d.walkAtLeaf true else d.descend (nodeRight d.curWord)
    else d)

/-! ### Steps and transactions without an encoding -/

/-- `D_END`: at the root the run is DONE (R126), inside a code it is StreamCorruption (R127). -/
def Decoder.finish (d : Decoder) : Decoder :=
  if d.endEnabled then
    if d.mid then d.raise .streamCorruption d.cur else { d with state := .done }
  else d

/-- `IN_PUSH(b)` (R128). -/
def Decoder.inPush (b : Byte) (d : Decoder) : Decoder :=
  if d.inReady then { d with shreg := b, bitcnt := 8 } else d

end Sys2Proof.Machine
end

