-- ==== Sys2Proof/Machine/Dispatch.lean ====
section
/-! DEFINITION. One arm for each instruction. -/

namespace Sys2Proof.Machine

-- The meaning of every row of spec/opcode_table.json.
def exec (i : Instr) (s : State) : Host.Outcome State Fault Refusal :=
  match i with
  | .int left right sym => Sys2Proof.Machine.execInt left right sym s
  | .leaf left right sym => Sys2Proof.Machine.execLeaf left right sym s
  | .b0 => Sys2Proof.Machine.execB0 s
  | .b1 => Sys2Proof.Machine.execB1 s
  | .dStart => Sys2Proof.Machine.execDStart s
  | .dEos => Sys2Proof.Machine.execDEos s
  | .dClear => Sys2Proof.Machine.execDClear s
  | .pStart => Sys2Proof.Machine.execPStart s
  | .pFlush => Sys2Proof.Machine.execPFlush s
  | .pClear => Sys2Proof.Machine.execPClear s
  | .code sym len bits => Sys2Proof.Machine.execCode sym len bits s
  | .absent sym bits => Sys2Proof.Machine.execAbsent sym bits s

end Sys2Proof.Machine
end

