-- ==== Sys2Proof/Machine/Registers.lean ====
section
/-! DEFINITION. What a read of the register port returns: the register map of 10_state.md rules R41 to R50. -/

namespace Sys2Proof.Machine

/-- `REG_READ(a)` (R150): computed from the state, with no effect on it. `D_CMD`, `P_CMD` and the reserved addresses
read as 0 (R42, R47, R50). -/
def State.regValue (s : State) (a : RegAddr) : RegWord :=
  if a = 0x1#4 then s.dec.status
  else if a = 0x2#4 then s.dec.nnodes.setWidth 32
  else if a = 0x3#4 then s.dec.root.setWidth 32
  else if a = 0x4#4 then s.dec.errinfo.setWidth 32
  else if a = 0x9#4 then s.pack.status
  else if a = 0xA#4 then s.pack.errinfo.setWidth 32
  else 0

end Sys2Proof.Machine
end

