-- ==== Sys2Proof/Machine/Transactions.lean ====
section
/-! DEFINITION. The units' own steps and the host's transactions as steps of the whole state, and when the host waits. A step that
runs an instruction fetches it and gives it to `exec`. Source: 00_scope.md rule R7, 20_memory.md rules R61 to R64. -/

namespace Sys2Proof.Machine

/-! ### The units' own steps -/

/-- The decoder's own step, by the priority of R120 and R144: the scan, the emission (which also needs `out_ready`,
R64), the walk, the end. Emission and walk run the instruction fetched at `CUR` (log 8). -/
def decoderStep (s : State) : Host.Outcome State Fault Refusal :=
  if s.dec.state = .validate then .next (s.mapDec Decoder.vStep)
  else if s.dec.emitPending then
    if s.host.outReady then exec s.dec.fetchNode s else .next s
  else if s.dec.walkEnabled then exec s.dec.fetchNode s
  else .next (s.mapDec Decoder.finish)

/-- The bitpacker's own step (R170). -/
def packerStep (s : State) : Host.Outcome State Fault Refusal :=
  .next (s.mapPack (Packer.step s.host.byteReady))

/-- With nothing to do for the host, a unit that can step does so; the order of the units is unobservable (R72 item 4, R267;
log 4). Where neither can, nothing happens: the units wait (R129, R170, R250, U11). -/
def unitsStep (s : State) : Host.Outcome State Fault Refusal :=
  if s.dec.canStep s.host.outReady then decoderStep s else packerStep s

/-! ### The host's transactions -/

/-- `REG_WRITE(a, v)` (R41 to R50): a command runs its instruction, `D_NNODES` and `D_ROOT` are written, every other
write is ignored. -/
def regWrite (a : RegAddr) (v : RegWord) (s : State) : Host.Outcome State Fault Refusal :=
  match decode (.command a v) with
  | .ok i => exec i s
  | .error _ =>
    if a = 0x2#4 then .next (s.mapDec (Decoder.writeNnodes v))
    else if a = 0x3#4 then .next (s.mapDec (Decoder.writeRoot v))
    else .next s

/-- `SYM_PUSH(sym)` (R173, R184): an accepted symbol runs the instruction of its table entry. -/
def symPush (sym : Byte) (s : State) : Host.Outcome State Fault Refusal :=
  if s.pack.symReady then exec (s.pack.fetchEntry sym) s else .next s

/-- `REG_READ(a)` (R150): the block does not change; the value goes to the host (log 6). -/
def State.recordRead (s : State) (a : RegAddr) : State :=
  { s with host := { s.host with reads := s.host.reads ++ [s.regValue a] } }

/-- The host does `e`. -/
def perform (e : Event) (s : State) : Host.Outcome State Fault Refusal :=
  match e with
  | .tmWrite i w => .next (s.mapDec (Decoder.tmWrite i w))
  | .ctWrite sym len bits => .next (s.mapPack (Packer.ctWrite sym len bits))
  | .regWrite a v => regWrite a v s
  | .regRead a => .next (s.recordRead a)
  | .inPush b => .next (s.mapDec (Decoder.inPush b))
  | .symPush sym => symPush sym s
  | .rst => .next s.rst
  | .setOutReady b => .next { s with host := { s.host with outReady := b } }
  | .setByteReady b => .next { s with host := { s.host with byteReady := b } }
  | .decoderTurn => decoderStep s
  | .packerTurn => packerStep s
  | .awaitDecoder => .next s
  | .awaitPacker => .next s

/-- The host waits before `e`: an item offered on a port that is not ready stays offered (R64, R78, R128, R170), and a
status line not yet 1 is waited for (R151, R183). -/
def blocked (e : Event) (s : State) : Bool :=
  match e with
  | .inPush _ => !s.dec.inReady
  | .symPush _ => !s.pack.symReady
  | .awaitDecoder => !(s.dec.doneLine || s.dec.errorLine)
  | .awaitPacker => !(s.pack.doneLine || s.pack.errorLine)
  | .tmWrite _ _ => false
  | .ctWrite _ _ _ => false
  | .regWrite _ _ => false
  | .regRead _ => false
  | .rst => false
  | .setOutReady _ => false
  | .setByteReady _ => false
  | .decoderTurn => false
  | .packerTurn => false

/-- The next step: the host's next act where the host does not wait, else a unit's own step. -/
def advance (s : State) : Host.Outcome State Fault Refusal :=
  match s.host.agenda with
  | [] => unitsStep s
  | e :: rest => if blocked e s then unitsStep s else perform e (s.withAgenda rest)

/-! ### Placing an instruction where the next step fetches it (log 13) -/

/-- The state `s` with `item` where the next step takes it from.
A node word: at `CUR`, in RUN, with a turn of the decoder next; a Leaf is reached by a walk (R124) with the output
drained, an Internal node has a bit to take.
A bit: next in `SHREG`, in RUN, with nothing pending; where no node stands at `CUR` yet, the Internal node `INT 0, 0` does.
A command: written to its register next.
A table entry: in CT at its symbol, the bitpacker ready, and that symbol pushed next. -/
def State.place (s : State) : Item → State
  | .node w =>
    { s with
      dec := { s.dec.tmStore s.dec.cur w with
        state := .run, mid := nodeTag w, bitcnt := if s.dec.bitcnt = 0 then 1 else s.dec.bitcnt }
      host := { s.host with outReady := true, agenda := .decoderTurn :: s.host.agenda } }
  | .bit b =>
    let d := match Memory.read? s.dec.tm s.dec.cur.toNat with
      | some _ => s.dec
      | none => s.dec.tmStore s.dec.cur (nodeWord 0b011000#6 0 0 0)
    { s with
      dec := { d with state := .run, mid := false, shreg := (BitVec.ofBool b) ++ d.shreg.setWidth 7,
                      bitcnt := if d.bitcnt = 0 then 1 else d.bitcnt }
      host := { s.host with agenda := .decoderTurn :: s.host.agenda } }
  | .command a v => s.withAgenda (.regWrite a v :: s.host.agenda)
  | .entry sym len bits =>
    { s with
      pack := { s.pack.ctStore sym len bits with state := .run, clen := 0, flush := false, acclen := 0, acc := 0 }
      host := { s.host with agenda := .symPush sym :: s.host.agenda } }

end Sys2Proof.Machine
end

