-- ==== Sys2Proof/Machine/Step.lean ====
section
/-! DEFINITION. The step of the machine, and the placing of an instruction where the step fetches it. -/

namespace Sys2Proof.Machine

/-- One step: the host's next act, or a unit's own step while the host waits or has nothing to do (log 3, log 4). -/
def step (s : State) : Host.Outcome State Fault Refusal := advance s

/-- `s` with the instruction whose bits are `w`, in the numbering of spec/opcode_table.json, placed where `step` takes its
next instruction from (log 7, log 13). -/
def State.withFetchWord (s : State) (nbits w : Nat) : State := s.place (itemOfTableWord nbits w)

end Sys2Proof.Machine
end

