-- ==== Sys2Proof/Safety.lean ====
section
/-! DEFINITION. What holds in every state a run from reset reaches: the invariants of 10_state.md rule R53, strengthened so that every
step keeps them, and what an error tells its caller (60_exceptions.md rules R232 to R236). -/

namespace Sys2Proof.Machine

/-- During the validation scan (R144): the root names a node, the scan has not passed the tree's end, every entry
behind it is legal, and nothing of the walk has begun. -/
structure Decoder.ScanInv (d : Decoder) : Prop where
  rootInTree : d.root.toNat < d.nnodes.toNat
  scanInTree : d.vptr.toNat < d.nnodes.toNat
  scanned : ∀ i : NodeIdx, i.toNat < d.vptr.toNat → nodeOk (d.tmRead i) d.nnodes = true
  atRoot : d.cur = d.root
  notMid : d.mid = false
  noBits : d.bitcnt = 0
  noOutput : d.out = []

/-- During the walk (R53 items 2, 3): every node of the tree is legal, the root and the current node are nodes of it,
and with nothing consumed the walk stands at the root. -/
structure Decoder.RunInv (d : Decoder) : Prop where
  treeOk : ∀ i : NodeIdx, i.toNat < d.nnodes.toNat → nodeOk (d.tmRead i) d.nnodes = true
  rootInTree : d.root.toNat < d.nnodes.toNat
  curInTree : d.cur.toNat < d.nnodes.toNat
  atRoot : d.mid = false → d.cur = d.root

/-- What the error code and info say is so, each code by its rule: R232, R233, R235, R236. -/
def Decoder.ErrorInv (d : Decoder) : Prop :=
  match d.errcode with
  | .noError => False
  | .malformedTree =>
    d.errinfo.toNat < d.nnodes.toNat ∧ nodeOk (d.tmRead d.errinfo) d.nnodes = false ∧
      (∀ i : NodeIdx, i.toNat < d.errinfo.toNat → nodeOk (d.tmRead i) d.nnodes = true) ∧ d.out = []
  | .streamCorruption =>
    d.errinfo = d.cur ∧ d.bitcnt = 0 ∧ d.eos = true ∧ d.mid = true ∧ d.curTag = false
  | .noTree => d.errinfo = d.root ∧ d.noTree = true ∧ d.out = []
  | .treeMismatch =>
    d.errinfo = d.cur ∧ d.cur = d.root ∧ d.curTag = true ∧ d.mid = false ∧ d.nextBit = true ∧ d.bitcnt ≠ 0

/-- The decoder's invariant (R53). -/
structure Decoder.Inv (d : Decoder) : Prop where
  tmCanonical : Memory.wf Config.tmDepth d.tm = true
  countLegal : d.nnodes.toNat ≤ Config.tmDepth
  bitsLegal : d.bitcnt.toNat ≤ 8
  noErrorOutsideError : d.state ≠ .error → d.errcode = .noError ∧ d.errinfo = 0
  inValidate : d.state = .validate → d.ScanInv
  inRun : d.state = .run → d.RunInv
  inDone : d.state = .done → d.mid = false ∧ d.bitcnt = 0 ∧ d.eos = true ∧ d.cur = d.root
  inError : d.state = .error → d.ErrorInv

/-- The bitpacker's invariant (R53), with what UnknownSymbol says (R234) and what DONE leaves (R178, R213). -/
structure Packer.Inv (p : Packer) : Prop where
  ctCanonical : Memory.wf Config.ctDepth p.ct = true
  accLegal : p.acclen.toNat ≤ 8
  accHighZero : ∀ k, p.acclen.toNat ≤ k → p.acc.getLsbD k = false
  noErrorOutsideError : p.state ≠ .error → p.errcode = .noError ∧ p.errinfo = 0
  inDone : p.state = .done → p.acclen = 0 ∧ p.clen = 0 ∧ p.flush = true
  inError : p.state = .error →
    p.errcode = .unknownSymbol ∧ (p.ctRead p.errinfo).len = 0 ∧ p.acclen.toNat < 8 ∧ p.clen = 0 ∧ p.flush = false

/-- The machine's invariant. -/
structure State.Inv (s : State) : Prop where
  dec : s.dec.Inv
  pack : s.pack.Inv

/-- The items of R53 as the spec lists them. -/
structure State.R53 (s : State) : Prop where
  /-- Item 1. -/
  bounds : s.dec.bitcnt.toNat ≤ 8 ∧ s.pack.acclen.toNat ≤ 8 ∧ s.dec.nnodes.toNat ≤ 512
  /-- Item 2. -/
  atRoot : s.dec.state = .run → s.dec.mid = false → s.dec.cur = s.dec.root
  /-- Item 3. -/
  curLegal : s.dec.state = .run →
    s.dec.cur.toNat < s.dec.nnodes.toNat ∧ nodeOk (s.dec.tmRead s.dec.cur) s.dec.nnodes = true
  /-- Item 4: a Leaf with nothing consumed is the root, so the root is a Leaf. -/
  leafAtRoot : s.dec.state = .run → nodeTag (s.dec.tmRead s.dec.cur) = true → s.dec.mid = false →
    s.dec.cur = s.dec.root ∧ nodeTag (s.dec.tmRead s.dec.root) = true
  /-- Item 5. -/
  errorIff : (s.dec.state = .error ↔ s.dec.errcode.bits ≠ 0) ∧ (s.pack.state = .error ↔ s.pack.errcode.bits ≠ 0)
  /-- Item 6. -/
  accHighZero : s.pack.acclen.toNat < 8 → ∀ k, s.pack.acclen.toNat ≤ k → s.pack.acc.getLsbD k = false
  /-- Item 7. -/
  statesTaken : s.dec.state.bits.toNat ≤ 4 ∧ s.pack.state.bits.toNat ≤ 4 ∧ s.pack.state.bits ≠ 1

end Sys2Proof.Machine
end

