-- ==== Sys2Proof/Safety/Reference.lean ====
section
/-! DEFINITION. What a whole run computes, as functions the step function is held against: the walk of R131, the validation of
R145, the packing of R181, and the host's side of the round trip: the proper tree an arena stands for (R201, R206), its
codes (R205) and the table loaded from them (R207). -/

namespace Sys2Proof.Reference

open Sys2Proof Sys2Proof.Machine

/-- An arena: the node word at each index. -/
abbrev Arena := NodeIdx → NodeWord

/-- How a decoder run ends. -/
inductive RunEnd where
  | done
  | error (e : DError) (info : NodeIdx)
  deriving DecidableEq, Repr

/-! ### The walk (R131) -/

/-- Where the walk stands once a pending emission is made: at the root, or where it was (R131, first case). -/
def settledAt (T : Arena) (r cur : NodeIdx) (mid : Bool) : NodeIdx :=
  if mid ∧ nodeTag (T cur) then r else cur

/-- The output once a pending emission is made (R131, first case). -/
def settledOut (T : Arena) (cur : NodeIdx) (mid : Bool) (out : List Byte) : List Byte :=
  if mid ∧ nodeTag (T cur) then out ++ [nodeSym (T cur)] else out

/-- `walk` of R131, by recursion on the bits: the pending emission, if any, is made first. -/
def walk (T : Arena) (r : NodeIdx) : NodeIdx → Bool → List Bool → List Byte → List Byte × RunEnd
  | cur, mid, [], out =>
    (settledOut T cur mid out, if mid && !nodeTag (T cur) then .error .streamCorruption cur else .done)
  | cur, mid, b :: rest, out =>
    let at' := settledAt T r cur mid
    let out' := settledOut T cur mid out
    if nodeTag (T at') then
      if b then (out', .error .treeMismatch at') else walk T r at' true rest out'
    else walk T r (if b then nodeRight (T at') else nodeLeft (T at')) true rest out'

/-- `decode_bits` of R131. -/
def decodeBits (T : Arena) (r : NodeIdx) (bits : List Bool) : List Byte × RunEnd := walk T r r false bits []

/-- The bits of the current byte that are not consumed yet, the next first (R28). -/
def pendingBits (d : Decoder) : List Bool := (streamBits d.shreg).take d.bitcnt.toNat

/-- What the run of the decoder `d` will give if the host pushes exactly `bytes` from here on and then gives `D_EOS` (R131). -/
def runResult (d : Decoder) (bytes : List Byte) : List Byte × RunEnd :=
  walk d.tmRead d.root d.cur d.mid (pendingBits d ++ bytes.flatMap streamBits) d.out

/-- The decoder `d` shows the end of a run: the state, and on an error its code and info (R9). -/
def Shows (d : Decoder) : RunEnd → Prop
  | .done => d.state = .done
  | .error e info => d.state = .error ∧ d.errcode = e ∧ d.errinfo = info

/-! ### Validation (R145) -/

/-- The least index below `n` whose word is illegal. -/
def leastIllegal (T : Arena) (n : NodeCount) : Option Nat :=
  (List.range n.toNat).find? fun i => !nodeOk (T (BitVec.ofNat 9 i)) n

/-! ### Packing (R104, R181) -/

/-- Eight bits as a byte, the first bit in bit 7. -/
def byteOf (bits : List Bool) : Byte := bits.foldl shiftIn 0

/-- The whole bytes of a bit string; fewer than eight bits left over are dropped. -/
def bytesOf : List Bool → List Byte
  | b7 :: b6 :: b5 :: b4 :: b3 :: b2 :: b1 :: b0 :: rest => byteOf [b7, b6, b5, b4, b3, b2, b1, b0] :: bytesOf rest
  | _ => []

/-- The number of padding bits: `(8 - (|bits| mod 8)) mod 8`. -/
def padLength (bits : List Bool) : Nat := (8 - bits.length % 8) % 8

/-- The bit string right-padded with zeros to whole bytes. -/
def padded (bits : List Bool) : List Bool := bits ++ List.replicate (padLength bits) false

/-- The bit string of a payload by a code table: the codes in payload order (R181). -/
def payloadBits (table : Byte → CodeEntry) (payload : List Byte) : List Bool :=
  payload.flatMap fun y => codeBits (table y).len (table y).bits

/-- The payload before its first symbol without a code. -/
def knownPart (table : Byte → CodeEntry) (payload : List Byte) : List Byte :=
  payload.takeWhile fun y => decide ((table y).len ≠ 0)

/-- The bytes and the first unknown symbol of a whole bitpacker run (R181). -/
def packRun (table : Byte → CodeEntry) (payload : List Byte) : List Byte × Option Byte :=
  match payload.drop (knownPart table payload).length with
  | [] => (bytesOf (padded (payloadBits table payload)), none)
  | y :: _ => (bytesOf (payloadBits table (knownPart table payload)), some y)

/-! ### The host's tree and table -/

/-- A strictly binary tree, each node of one variant: a symbol and no child, or two children and no symbol (R201). The
weights are left out (R4, D3; log 14). What else makes a tree proper is `ProperTree`. -/
inductive PrefixTree where
  | leaf (sym : Byte)
  | node (left right : PrefixTree)
  deriving DecidableEq, Repr

/-- The arena `T` holds the tree with its root at the index `i` (R206). -/
def Represents (T : Arena) : PrefixTree → NodeIdx → Prop
  | .leaf y, i => nodeTag (T i) = true ∧ nodeSym (T i) = y
  | .node l r, i =>
    nodeTag (T i) = false ∧ Represents T l (nodeLeft (T i)) ∧ Represents T r (nodeRight (T i))

/-- The symbols at the leaves. -/
def PrefixTree.symbols : PrefixTree → List Byte
  | .leaf y => [y]
  | .node l r => l.symbols ++ r.symbols

/-- The indices at which the arena `T` holds the nodes of the tree, each as often as the tree has a node there. -/
def indices (T : Arena) : PrefixTree → NodeIdx → List NodeIdx
  | .leaf _, i => [i]
  | .node l r, i => i :: (indices T l (nodeLeft (T i)) ++ indices T r (nodeRight (T i)))

/-- The arena `T` holds a proper tree with its root at `r` (R201, R132, R263 item 3). A cycle is held by no finite tree. -/
structure ProperTree (T : Arena) (t : PrefixTree) (r : NodeIdx) : Prop where
  /-- Strictly binary, with the root at `r`. -/
  holds : Represents T t r
  /-- Every node is exactly one variant: its word is an `INT` or a `LEAF` (R92). -/
  oneVariant : ∀ i ∈ indices T t r, ∃ ins, decode (.node (T i)) = .ok ins
  /-- Both children are owned exclusively: no node has two parents. -/
  unshared : (indices T t r).Nodup
  /-- The leaves are in 1:1 correspondence with distinct symbols. -/
  distinct : t.symbols.Nodup

/-- A proper tree loaded with the node count `n`: its nodes stand at exactly the indices 0 to `n - 1` (R206). -/
structure LoadedTree (T : Arena) (n : NodeCount) (t : PrefixTree) (r : NodeIdx) : Prop where
  proper : ProperTree T t r
  numbered : ∀ i : NodeIdx, i ∈ indices T t r ↔ i.toNat < n.toNat

/-- `paths` of R205: each symbol with its path from the node, 0 to the left and 1 to the right. -/
def PrefixTree.paths : PrefixTree → List (Byte × List Bool)
  | .leaf y => [(y, [])]
  | .node l r =>
    (l.paths.map fun p => (p.1, false :: p.2)) ++ (r.paths.map fun p => (p.1, true :: p.2))

/-- `codes_of_tree` of R205: a lone leaf has the code 0. -/
def PrefixTree.codes : PrefixTree → List (Byte × List Bool)
  | .leaf y => [(y, [false])]
  | .node l r => (PrefixTree.node l r).paths

/-- A code read as a binary number, first bit most significant (R207). -/
def codeNumber (c : List Bool) : Nat := c.foldl (fun v b => 2 * v + b.toNat) 0

/-- The entry the host writes for a code (R207). -/
def codeEntry (c : List Bool) : CodeEntry := ⟨BitVec.ofNat 8 c.length, BitVec.ofNat 255 (codeNumber c)⟩

/-- The entries the host writes for a tree: the code of each symbol that has one, `(0, 0)` for every other (R207). -/
def PrefixTree.table (t : PrefixTree) (y : Byte) : CodeEntry :=
  match t.codes.find? fun p => p.1 == y with
  | some p => codeEntry p.2
  | none => ⟨0, 0⟩

/-- The table holds the codes of the tree, whatever stands in an entry's unused bits, and no other code (R207, R97
item 3). A table has this for a tree whose leaves have distinct symbols. -/
structure TableOf (table : Byte → CodeEntry) (t : PrefixTree) : Prop where
  coded : ∀ y c, (y, c) ∈ t.codes → codeBits (table y).len (table y).bits = c
  others : ∀ y, y ∉ t.symbols → (table y).len = 0

end Sys2Proof.Reference
end

