-- ==== Sys2Proof/Certificates/Slice0/Obligations.lean ====
section
/-! DEFINITION. The statements for the provers. Each docstring names the rules of spec/ it formalises. Where a statement speaks of the agenda,
that is the model's form of the host's transactions, which the spec calls inputs (R7, R20; log 3, a DESIGN CHOICE). -/

open Sys2Proof Sys2Proof.Machine Sys2Proof.Reference

/-! ### Encodings (30_encoding.md) -/

/-- R91, R92, R93, R95, R96: an item decodes to an instruction exactly if the instruction is well-formed and is encoded in
that item. So no bit is dropped, no item has two meanings, and what is illegal or reserved decodes to nothing. -/
def Obligations.DecodeAndEncodeAgree : Prop :=
  ∀ (m : Item) (i : Instr), decode m = .ok i ↔ i.wellFormed = true ∧ encode i = m

/-- The model's numbering of an item's bits (log 7): every well-formed instruction is read back from its bits. -/
def Obligations.TableWordReadsBack : Prop :=
  ∀ i : Instr, i.wellFormed = true →
    decodeTableWord (encodeTableWord i).1 (encodeTableWord i).2 = some i

/-- R92: a node word is legal in a tree of `n` nodes exactly if it decodes to an `INT` with both children below `n` or to a `LEAF`. -/
def Obligations.LegalNodeWordsAreTheDecodableOnes : Prop :=
  ∀ (w : NodeWord) (n : NodeCount),
    nodeOk w n = true ↔
      (∃ l r y, decode (.node w) = .ok (.int l r y) ∧ l.toNat < n.toNat ∧ r.toNat < n.toNat) ∨
      (∃ l r y, decode (.node w) = .ok (.leaf l r y))

/-- R102: the words that the loading notation stands for. -/
def Obligations.LoadingNotationWords : Prop :=
  ∀ (l r : NodeIdx) (y : Byte),
    encode (.int l r 0) = .node (BitVec.ofNat 32 (0x60000000 + l.toNat * 0x20000 + r.toNat * 0x100)) ∧
    encode (.leaf 0 0 y) = .node (BitVec.ofNat 32 (0x80000000 + y.toNat))

/-- Words written out from 30_encoding.md R91 to R96 and 95_test_vectors.md V1 decode to what they stand for, and the
illegal and reserved ones to nothing. -/
def Obligations.WordsOfTheSpecDecode : Prop :=
  decode (.node 0x60020200#32) = .ok (.int 1 2 0) ∧
  decode (.node 0x63FFFF00#32) = .ok (.int 511 511 0) ∧
  decode (.node 0x8003FF62#32) = .ok (.leaf 1 511 0x62) ∧
  decode (.node 0x40020200#32) = .error .illegalNode ∧
  decode (.node 0xC0040061#32) = .error .illegalNode ∧
  decode (.node 0x84000062#32) = .error .illegalNode ∧
  decode (.command 0x0#4 2#32) = .ok .dEos ∧
  decode (.command 0x8#4 2#32) = .ok .pFlush ∧
  decode (.command 0x0#4 0x80000001#32) = .error .reservedCommand ∧
  decode (.entry 0x61#8 4#8 7#255) = .ok (.code 0x61 4 7) ∧
  decode (.entry 0x7A#8 0#8 0x1234#255) = .ok (.absent 0x7A 0x1234) ∧
  decode (.bit false) = .ok .b0 ∧ decode (.bit true) = .ok .b1

/-! ### The walk (40_decoder_walk.md) -/

/-- R121: at an `INT` with a bit to take, the instruction at `CUR` consumes the bit and goes to the child it selects; nothing
else of the machine changes; and it is what the decoder's own step does. -/
def Obligations.IntGoesToTheChildOfTheNextBit : Prop :=
  ∀ (s : State) (l r : NodeIdx) (y : Byte),
    .node (s.dec.tmRead s.dec.cur) = encode (.int l r y) → s.dec.state = .run → s.dec.bitcnt ≠ 0 →
    exec (.int l r y) s = .next { s with dec := { s.dec with
      shreg := s.dec.shreg <<< 1
      bitcnt := s.dec.bitcnt - 1
      cur := if s.dec.shreg.getLsbD 7 = false then l else r
      mid := true } } ∧
    decoderStep s = exec (.int l r y) s

/-- R124: a `LEAF` reached by a walk is offered on the output port and emitted, and the walk goes back to the root; no bit is
consumed and nothing else changes; with `out_ready` it is what the decoder's own step does. -/
def Obligations.LeafReachedIsEmitted : Prop :=
  ∀ (s : State) (l r : NodeIdx) (y : Byte),
    .node (s.dec.tmRead s.dec.cur) = encode (.leaf l r y) → s.dec.state = .run → s.dec.mid = true →
    s.dec.outValid = true ∧ s.dec.outSym = y ∧
    exec (.leaf l r y) s = .next { s with dec := { s.dec with
      out := s.dec.out ++ [y], cur := s.dec.root, mid := false } } ∧
    (s.host.outReady = true → decoderStep s = exec (.leaf l r y) s) ∧
    (s.host.outReady = false → decoderStep s = .next s)

/-- R125: a `LEAF` where nothing has been consumed takes one bit: 0 is its code, 1 raises TreeMismatch with `CUR` and is not
consumed; nothing else changes; and it is what the decoder's own step does. -/
def Obligations.LeafAtTheRootTakesOneBit : Prop :=
  ∀ (s : State) (l r : NodeIdx) (y : Byte),
    .node (s.dec.tmRead s.dec.cur) = encode (.leaf l r y) → s.dec.state = .run → s.dec.mid = false →
    s.dec.bitcnt ≠ 0 →
    (s.dec.shreg.getLsbD 7 = false → exec (.leaf l r y) s = .next { s with dec := { s.dec with
      shreg := s.dec.shreg <<< 1, bitcnt := s.dec.bitcnt - 1, mid := true } }) ∧
    (s.dec.shreg.getLsbD 7 = true → exec (.leaf l r y) s = .next { s with dec := { s.dec with
      state := .error, errcode := .treeMismatch, errinfo := s.dec.cur } }) ∧
    decoderStep s = exec (.leaf l r y) s

/-- R122: the stream bit 0, where it is the next bit, selects the left child of the node at `CUR`; where that node is a Leaf it is the
code of its symbol. It is what the decoder's own step does. -/
def Obligations.ZeroBitSelectsTheLeftChild : Prop :=
  ∀ s : State, s.dec.state = .run → s.dec.emitPending = false → s.dec.bitcnt ≠ 0 → s.dec.shreg.getLsbD 7 = false →
    exec .b0 s = .next { s with dec := { s.dec with
      shreg := s.dec.shreg <<< 1
      bitcnt := s.dec.bitcnt - 1
      cur := if nodeTag (s.dec.tmRead s.dec.cur) = false then nodeLeft (s.dec.tmRead s.dec.cur) else s.dec.cur
      mid := true } } ∧
    decoderStep s = exec .b0 s

/-- R123: the stream bit 1, where it is the next bit, selects the right child of the node at `CUR`; where that node is a Leaf it raises
TreeMismatch. It is what the decoder's own step does. -/
def Obligations.OneBitSelectsTheRightChild : Prop :=
  ∀ s : State, s.dec.state = .run → s.dec.emitPending = false → s.dec.bitcnt ≠ 0 → s.dec.shreg.getLsbD 7 = true →
    (nodeTag (s.dec.tmRead s.dec.cur) = false →
      exec .b1 s = .next { s with dec := { s.dec with
        shreg := s.dec.shreg <<< 1
        bitcnt := s.dec.bitcnt - 1
        cur := nodeRight (s.dec.tmRead s.dec.cur)
        mid := true } }) ∧
    (nodeTag (s.dec.tmRead s.dec.cur) = true →
      exec .b1 s = .next { s with dec := { s.dec with
        state := .error, errcode := .treeMismatch, errinfo := s.dec.cur } }) ∧
    decoderStep s = exec .b1 s

/-- R120: in RUN exactly one of four situations holds and enables its step alone; in every other state none of the four is
enabled. -/
def Obligations.DecoderSituationsExcludeEachOther : Prop :=
  ∀ d : Decoder,
    (d.state = .run →
      ((d.mid = true ∧ nodeTag (d.tmRead d.cur) = true) →
        (d.emitPending, d.walkEnabled, d.endEnabled, d.inReady) = (true, false, false, false)) ∧
      (¬(d.mid = true ∧ nodeTag (d.tmRead d.cur) = true) → d.bitcnt ≠ 0 →
        (d.emitPending, d.walkEnabled, d.endEnabled, d.inReady) = (false, true, false, false)) ∧
      (¬(d.mid = true ∧ nodeTag (d.tmRead d.cur) = true) → d.bitcnt = 0 → d.eos = true →
        (d.emitPending, d.walkEnabled, d.endEnabled, d.inReady) = (false, false, true, false)) ∧
      (¬(d.mid = true ∧ nodeTag (d.tmRead d.cur) = true) → d.bitcnt = 0 → d.eos = false →
        (d.emitPending, d.walkEnabled, d.endEnabled, d.inReady) = (false, false, false, true))) ∧
    (d.state ≠ .run →
      (d.emitPending, d.walkEnabled, d.endEnabled, d.inReady) = (false, false, false, false))

/-- R126, R127: with no bit left and none to come the run ends: DONE where nothing is consumed, else StreamCorruption with `CUR`.
Nothing else changes. -/
def Obligations.ExhaustedStreamEndsTheRun : Prop :=
  ∀ s : State, s.dec.state = .run → s.dec.emitPending = false → s.dec.bitcnt = 0 → s.dec.eos = true →
    (s.dec.mid = false → decoderStep s = .next { s with dec := { s.dec with state := .done } }) ∧
    (s.dec.mid = true → decoderStep s = .next { s with dec := { s.dec with
      state := .error, errcode := .streamCorruption, errinfo := s.dec.cur } })

/-- R128: an offered byte is taken exactly if the decoder is in RUN with no emit pending, no bit left and no end said; until then it
stays offered. The agenda: log 3. -/
def Obligations.BytesAreAcceptedWhenReady : Prop :=
  ∀ (s : State) (b : Byte) (rest : List Event), s.host.agenda = .inPush b :: rest →
    (s.dec.state = .run ∧ s.dec.emitPending = false ∧ s.dec.bitcnt = 0 ∧ s.dec.eos = false →
      step s = .next { s with
        dec := { s.dec with shreg := b, bitcnt := 8 }, host := { s.host with agenda := rest } }) ∧
    (¬(s.dec.state = .run ∧ s.dec.emitPending = false ∧ s.dec.bitcnt = 0 ∧ s.dec.eos = false) →
      ∃ s', step s = .next s' ∧ s'.host.agenda = s.host.agenda)

/-- R129: a decoder in RUN with nothing pending, no bit and no end said has no step of its own, and stays exactly as it is at every
step until the host pushes a byte or gives `D_EOS` (or `rst`). The agenda: log 3. -/
def Obligations.DecoderWaitsForInput : Prop :=
  ∀ s : State, s.dec.state = .run → s.dec.emitPending = false → s.dec.bitcnt = 0 → s.dec.eos = false →
    decoderStep s = .next s ∧ s.dec.canStep true = false ∧
    ∀ s', step s = .next s' → s'.dec = s.dec ∨ (∃ b, s.host.agenda.head? = some (.inPush b)) ∨
      s.host.agenda.head? = some (.regWrite 0x0#4 2#32) ∨ s.host.agenda.head? = some .rst

/-- Log 2 (the model's choice): an instruction given where its condition is false leaves the machine as it is. The condition of each is
the one of its rule: R121 for `INT`, R124 or R125 for `LEAF`, R122 for `B0`, R123 for `B1`, R173 for `CODE`, R184 for `ABSENT`. `INT`
and `LEAF` are given their word, `CODE` and `ABSENT` their entry, so whether that is the word at `CUR` or the entry in `CT` is no part
of the condition here (log 8). -/
def Obligations.DisabledInstructionsChangeNothing : Prop :=
  ∀ (s : State) (l r : NodeIdx) (y : Byte) (n : CodeLen) (c : CodeField),
    let tag := nodeTag (s.dec.tmRead s.dec.cur)
    (¬(s.dec.state = .run ∧ s.dec.emitPending = false ∧ s.dec.bitcnt ≠ 0 ∧ tag = false) →
      exec (.int l r y) s = .next s) ∧
    (¬(s.dec.state = .run ∧ tag = true ∧ (s.dec.mid = true ∨ s.dec.bitcnt ≠ 0)) → exec (.leaf l r y) s = .next s) ∧
    (¬(s.dec.state = .run ∧ s.dec.emitPending = false ∧ s.dec.bitcnt ≠ 0 ∧ s.dec.shreg.getLsbD 7 = false) →
      exec .b0 s = .next s) ∧
    (¬(s.dec.state = .run ∧ s.dec.emitPending = false ∧ s.dec.bitcnt ≠ 0 ∧ s.dec.shreg.getLsbD 7 = true) →
      exec .b1 s = .next s) ∧
    (¬(s.pack.symReady = true ∧ n ≠ 0) → exec (.code y n c) s = .next s) ∧
    (s.pack.symReady = false → exec (.absent y c) s = .next s)

/-! ### Decoder control (41_decoder_control.md) -/

/-- R143: `D_START` in IDLE initialises the run at the root and begins the scan, or raises NoTree with `D_ROOT` where there is no
tree, which overrides the cleared code and info. Everything else keeps its value. In every other state it is ignored, and nothing else leaves IDLE. The agenda: log 3. -/
def Obligations.StartBeginsTheScanOrRaisesNoTree : Prop :=
  ∀ s : State,
    (s.dec.state ≠ .idle → exec .dStart s = .next s) ∧
    (∀ s', s.dec.state = .idle → step s = .next s' → s'.dec.state ≠ .idle →
      s.host.agenda.head? = some (.regWrite 0x0#4 1#32)) ∧
    (s.dec.state = .idle →
    let d := { s.dec with
      out := [], eos := false, mid := false, shreg := 0, bitcnt := 0, vptr := 0, cur := s.dec.root }
    (s.dec.nnodes = 0 ∨ s.dec.root.toNat ≥ s.dec.nnodes.toNat →
      exec .dStart s = .next { s with dec := { d with
        state := .error, errcode := .noTree, errinfo := s.dec.root } }) ∧
    (¬(s.dec.nnodes = 0 ∨ s.dec.root.toNat ≥ s.dec.nnodes.toNat) →
      exec .dStart s = .next { s with dec := { d with
        state := .validate, errcode := .noError, errinfo := 0 } }))

/-- R144: one step of the scan: an illegal word raises MalformedTree with its index; the last legal one ends the scan in RUN; any
other moves the scan on by one. Nothing else changes. -/
def Obligations.ScanStepChecksOneEntry : Prop :=
  ∀ s : State, s.dec.state = .validate →
    (nodeOk (s.dec.tmRead s.dec.vptr) s.dec.nnodes = false →
      decoderStep s = .next { s with dec := { s.dec with
        state := .error, errcode := .malformedTree, errinfo := s.dec.vptr } }) ∧
    (nodeOk (s.dec.tmRead s.dec.vptr) s.dec.nnodes = true → s.dec.vptr.toNat + 1 = s.dec.nnodes.toNat →
      decoderStep s = .next { s with dec := { s.dec with state := .run } }) ∧
    (nodeOk (s.dec.tmRead s.dec.vptr) s.dec.nnodes = true → s.dec.vptr.toNat + 1 ≠ s.dec.nnodes.toNat →
      decoderStep s = .next { s with dec := { s.dec with vptr := s.dec.vptr + 1 } })

/-- R145: from a start in IDLE with no other input the decoder reaches NoTree, or MalformedTree at the least illegal index, or RUN at
the root with nothing consumed; within `D_NNODES + 1` steps; the other unit is untouched. The agenda: log 3. That a bitpacker which also has a
step waits meanwhile, so that it is untouched and the bound holds of the machine's steps, is the model's choice: log 4. -/
def Obligations.ValidationFindsTheLeastIllegalEntry : Prop :=
  ∀ s : State, s.dec.state = .idle → s.dec.nnodes.toNat ≤ 512 → s.host.agenda = [.regWrite 0x0#4 1#32] →
    ∃ k s', k ≤ s.dec.nnodes.toNat + 1 ∧ core.run k s = .next s' ∧ s'.pack = s.pack ∧
      s'.dec.tm = s.dec.tm ∧ s'.dec.nnodes = s.dec.nnodes ∧ s'.dec.root = s.dec.root ∧
      s'.dec.out = [] ∧ s'.dec.eos = false ∧
      (if s.dec.nnodes = 0 ∨ s.dec.root.toNat ≥ s.dec.nnodes.toNat then
        s'.dec.state = .error ∧ s'.dec.errcode = .noTree ∧ s'.dec.errinfo = s.dec.root
      else match leastIllegal s.dec.tmRead s.dec.nnodes with
        | some i => s'.dec.state = .error ∧ s'.dec.errcode = .malformedTree ∧ s'.dec.errinfo.toNat = i
        | none => s'.dec.state = .run ∧ s'.dec.cur = s.dec.root ∧ s'.dec.mid = false ∧ s'.dec.bitcnt = 0)

/-- R147: `D_EOS` in VALIDATE or RUN sets EOS, which keeps `in_ready` at 0; nothing else changes; in every other state it is ignored. -/
def Obligations.EosIsSetDuringARun : Prop :=
  ∀ s : State,
    (s.dec.state = .validate ∨ s.dec.state = .run →
      exec .dEos s = .next { s with dec := { s.dec with eos := true } } ∧
      ({ s.dec with eos := true } : Decoder).inReady = false) ∧
    (¬(s.dec.state = .validate ∨ s.dec.state = .run) → exec .dEos s = .next s)

/-- R148: `D_CLEAR` in DONE or ERROR goes to IDLE and zeroes the code and the info; everything else keeps its value; in every other
state it is ignored. -/
def Obligations.ClearAcknowledgesTheEnd : Prop :=
  ∀ s : State,
    (s.dec.state = .done ∨ s.dec.state = .error →
      exec .dClear s = .next { s with dec := { s.dec with state := .idle, errcode := .noError, errinfo := 0 } }) ∧
    (¬(s.dec.state = .done ∨ s.dec.state = .error) → exec .dClear s = .next s)

/-- R149: a decoder command or a load in a state where it is not taken, and a reserved command value, change nothing. -/
def Obligations.UntimelyDecoderActsAreIgnored : Prop :=
  ∀ (s : State) (v : RegWord) (i : NodeIdx) (w : NodeWord),
    (s.dec.state ≠ .idle → exec .dStart s = .next s ∧ perform (.regWrite 0x0#4 1#32) s = .next s ∧
      perform (.regWrite 0x2#4 v) s = .next s ∧ perform (.regWrite 0x3#4 v) s = .next s ∧
      perform (.tmWrite i w) s = .next s) ∧
    (s.dec.state ≠ .validate → s.dec.state ≠ .run →
      exec .dEos s = .next s ∧ perform (.regWrite 0x0#4 2#32) s = .next s) ∧
    (s.dec.state ≠ .done → s.dec.state ≠ .error →
      exec .dClear s = .next s ∧ perform (.regWrite 0x0#4 3#32) s = .next s) ∧
    (v ≠ 1#32 → v ≠ 2#32 → v ≠ 3#32 → perform (.regWrite 0x0#4 v) s = .next s) ∧
    (s.dec.state ≠ .run → s.dec.inReady = false) ∧
    (s.dec.state = .run → (s.dec.inReady = true ↔
      s.dec.emitPending = false ∧ s.dec.bitcnt = 0 ∧ s.dec.eos = false))

/-- R140: a `TM_WRITE` in IDLE sets that entry and no other, and changes nothing else; in every other state it changes nothing. No
other act and no step changes an entry, `rst` included. The agenda: log 3. -/
def Obligations.TreeEntriesAreWrittenInIdle : Prop :=
  ∀ (s : State) (i : NodeIdx) (w : NodeWord),
    (s.dec.state = .idle → ∃ m, perform (.tmWrite i w) s = .next { s with dec := { s.dec with tm := m } } ∧
      ∀ j : NodeIdx, ({ s.dec with tm := m } : Decoder).tmRead j = if j = i then w else s.dec.tmRead j) ∧
    (s.dec.state ≠ .idle → perform (.tmWrite i w) s = .next s) ∧
    (∀ s', step s = .next s' → s'.dec.tm ≠ s.dec.tm → ∃ j v, s.host.agenda.head? = some (.tmWrite j v))

/-- R44, R45 and R141, R142: `D_NNODES` and `D_ROOT` read as their values with zeros above, are 0 after reset, and take a legal value in IDLE,
a root that names no loaded node included; otherwise the write is ignored. -/
def Obligations.ConfigurationWritesTakeLegalValues : Prop :=
  ∀ (s : State) (v : RegWord),
    (s.dec.state = .idle → v.toNat ≤ 512 →
      perform (.regWrite 0x2#4 v) s = .next { s with dec := { s.dec with nnodes := v.setWidth 10 } } ∧
      ({ s with dec := { s.dec with nnodes := v.setWidth 10 } } : State).regValue 0x2#4 = v) ∧
    (¬(s.dec.state = .idle ∧ v.toNat ≤ 512) → perform (.regWrite 0x2#4 v) s = .next s) ∧
    (s.dec.state = .idle → v.toNat ≤ 511 →
      perform (.regWrite 0x3#4 v) s = .next { s with dec := { s.dec with root := v.setWidth 9 } } ∧
      ({ s with dec := { s.dec with root := v.setWidth 9 } } : State).regValue 0x3#4 = v) ∧
    (¬(s.dec.state = .idle ∧ v.toNat ≤ 511) → perform (.regWrite 0x3#4 v) s = .next s) ∧
    (s.regValue 0x2#4).toNat = s.dec.nnodes.toNat ∧ (s.regValue 0x3#4).toNat = s.dec.root.toNat ∧
    State.reset.dec.nnodes = 0 ∧ State.reset.dec.root = 0

/-! ### Registers (10_state.md) -/

/-- R43: the fields of `D_STATUS` are live views of the decoder's state, the reserved bits read as 0, all of it is 0 after reset, a read
has no side effect and a write is ignored. -/
def Obligations.DecoderStatusShowsItsFields : Prop :=
  ∀ s : State, let v := s.regValue 0x1#4
    v.extractLsb' 0 3 = s.dec.state.bits ∧ v.getLsbD 3 = s.dec.eos ∧ v.getLsbD 4 = s.dec.mid ∧
    v.extractLsb' 5 3 = 0 ∧ v.extractLsb' 8 4 = s.dec.errcode.bits ∧ v.extractLsb' 12 4 = s.dec.bitcnt ∧
    v.extractLsb' 16 9 = s.dec.cur ∧ v.extractLsb' 25 7 = 0 ∧ State.reset.regValue 0x1#4 = 0 ∧
    perform (.regRead 0x1#4) s = .next { s with host := { s.host with reads := s.host.reads ++ [v] } } ∧
    ∀ x, perform (.regWrite 0x1#4 x) s = .next s

/-- R48: the fields of `P_STATUS` are live views of the bitpacker's state, the reserved bits read as 0, all of it is 0 after reset, a read
has no side effect and a write is ignored. -/
def Obligations.PackerStatusShowsItsFields : Prop :=
  ∀ s : State, let v := s.regValue 0x9#4
    v.extractLsb' 0 3 = s.pack.state.bits ∧ v.getLsbD 3 = s.pack.flush ∧ v.extractLsb' 4 4 = 0 ∧
    v.extractLsb' 8 4 = s.pack.errcode.bits ∧ v.extractLsb' 12 4 = s.pack.acclen ∧
    v.extractLsb' 16 8 = s.pack.clen ∧ v.extractLsb' 24 8 = s.pack.acc ∧ State.reset.regValue 0x9#4 = 0 ∧
    perform (.regRead 0x9#4) s = .next { s with host := { s.host with reads := s.host.reads ++ [v] } } ∧
    ∀ x, perform (.regWrite 0x9#4 x) s = .next s

/-- R46, R49, R50 and the reads of R42 and R47: the info registers, the command registers and the reserved addresses; writes to the info registers and the
reserved addresses are ignored, no read has a side effect, and the infos are 0 after reset. -/
def Obligations.OtherRegistersReadAndIgnore : Prop :=
  ∀ s : State,
    (s.regValue 0x4#4).toNat = s.dec.errinfo.toNat ∧ (s.regValue 0xA#4).toNat = s.pack.errinfo.toNat ∧
    s.regValue 0x0#4 = 0 ∧ s.regValue 0x8#4 = 0 ∧
    (∀ a ∈ [0x5#4, 0x6#4, 0x7#4, 0xB#4, 0xC#4, 0xD#4, 0xE#4, 0xF#4], s.regValue a = 0) ∧
    (∀ a ∈ [0x4#4, 0xA#4, 0x5#4, 0x6#4, 0x7#4, 0xB#4, 0xC#4, 0xD#4, 0xE#4, 0xF#4],
      ∀ x, perform (.regWrite a x) s = .next s) ∧
    (∀ a, perform (.regRead a) s =
      .next { s with host := { s.host with reads := s.host.reads ++ [s.regValue a] } }) ∧
    State.reset.dec.errinfo = 0 ∧ State.reset.pack.errinfo = 0

/-- R150: a register read gives the host the register's value and changes neither unit, in every state. The agenda: log 3. -/
def Obligations.ReadsHaveNoSideEffect : Prop :=
  ∀ (s : State) (a : RegAddr) (rest : List Event), s.host.agenda = .regRead a :: rest →
    step s = .next { s with host := { s.host with agenda := rest, reads := s.host.reads ++ [s.regValue a] } }

/-! ### The bitpacker (42_bitpacker.md) -/

/-- R172: `P_START` in IDLE begins a run with everything of the last one cleared; the table and the decoder keep their values; in every
other state it is ignored. -/
def Obligations.PackStartBeginsARun : Prop :=
  ∀ s : State,
    (s.pack.state ≠ .idle → exec .pStart s = .next s) ∧
    (s.pack.state = .idle →
    exec .pStart s = .next { s with pack :=
      { ct := s.pack.ct, state := .run, cbuf := 0, clen := 0, acc := 0, acclen := 0, flush := false,
        errcode := .noError, errinfo := 0, bytes := [] } } ∧
    (∀ t, exec .pStart s = .next t → t.pack.symReady = true))

/-- R176: `P_FLUSH` in RUN sets FLUSH, which keeps `sym_ready` at 0; nothing else changes; in every other state it is ignored. -/
def Obligations.FlushIsSetDuringARun : Prop :=
  ∀ s : State,
    (s.pack.state = .run →
      exec .pFlush s = .next { s with pack := { s.pack with flush := true } } ∧
      ({ s.pack with flush := true } : Packer).symReady = false) ∧
    (s.pack.state ≠ .run → exec .pFlush s = .next s)

/-- R179: `P_CLEAR` in DONE or ERROR goes to IDLE and zeroes the code and the info; everything else keeps its value; in every other
state it is ignored. -/
def Obligations.PackClearAcknowledgesTheEnd : Prop :=
  ∀ s : State,
    (s.pack.state = .done ∨ s.pack.state = .error →
      exec .pClear s = .next { s with pack := { s.pack with state := .idle, errcode := .noError, errinfo := 0 } }) ∧
    (¬(s.pack.state = .done ∨ s.pack.state = .error) → exec .pClear s = .next s)

/-- R180: a bitpacker command or a table write in a state where it is not taken, and a reserved command value, change nothing; outside RUN no symbol is accepted. -/
def Obligations.UntimelyPackerActsAreIgnored : Prop :=
  ∀ (s : State) (v : RegWord) (y : Byte) (n : CodeLen) (c : CodeField),
    (s.pack.state ≠ .idle → exec .pStart s = .next s ∧ perform (.regWrite 0x8#4 1#32) s = .next s ∧
      perform (.ctWrite y n c) s = .next s) ∧
    (s.pack.state ≠ .run → exec .pFlush s = .next s ∧ perform (.regWrite 0x8#4 2#32) s = .next s ∧
      s.pack.symReady = false) ∧
    (s.pack.state = .run → (s.pack.symReady = true ↔
      s.pack.clen = 0 ∧ s.pack.flush = false ∧ s.pack.acclen.toNat < 8)) ∧
    (s.pack.state ≠ .done → s.pack.state ≠ .error →
      exec .pClear s = .next s ∧ perform (.regWrite 0x8#4 3#32) s = .next s) ∧
    (v ≠ 1#32 → v ≠ 2#32 → v ≠ 3#32 → perform (.regWrite 0x8#4 v) s = .next s)

/-- R171: a `CT_WRITE` in IDLE sets that entry and no other, and changes nothing else; in every other state it changes nothing. No
other act and no step changes an entry, `rst` included. The agenda: log 3. -/
def Obligations.TableEntriesAreWrittenInIdle : Prop :=
  ∀ (s : State) (y : Byte) (n : CodeLen) (c : CodeField),
    (s.pack.state = .idle → ∃ m, perform (.ctWrite y n c) s = .next { s with pack := { s.pack with ct := m } } ∧
      ∀ t : Byte, ({ s.pack with ct := m } : Packer).ctRead t = if t = y then ⟨n, c⟩ else s.pack.ctRead t) ∧
    (s.pack.state ≠ .idle → perform (.ctWrite y n c) s = .next s) ∧
    (∀ s', step s = .next s' → s'.pack.ct ≠ s.pack.ct → ∃ z l b, s.host.agenda.head? = some (.ctWrite z l b))

/-- R173: an accepted symbol whose entry has LEN from 1 to 255 makes that entry's code the code in progress; no bit is appended and nothing else changes; the symbol's push runs it. -/
def Obligations.CodedSymbolLoadsItsCode : Prop :=
  ∀ (s : State) (y : Byte) (n : CodeLen) (c : CodeField),
    s.pack.symReady = true → s.pack.ctRead y = ⟨n, c⟩ → n ≠ 0 →
    exec (.code y n c) s = .next { s with pack := { s.pack with cbuf := c, clen := n } } ∧
    perform (.symPush y) s = exec (.code y n c) s

/-- R184: an accepted symbol whose entry has LEN 0 raises UnknownSymbol with the symbol; the partial byte and the bytes transferred
keep their values, nothing else changes; the symbol's push runs it. -/
def Obligations.AbsentSymbolRaisesUnknownSymbol : Prop :=
  ∀ (s : State) (y : Byte) (c : CodeField), s.pack.symReady = true → s.pack.ctRead y = ⟨0, c⟩ →
    exec (.absent y c) s = .next { s with pack := { s.pack with
      state := .error, errcode := .unknownSymbol, errinfo := y } } ∧
    perform (.symPush y) s = exec (.absent y c) s

/-- R174: with a code in progress and room in the byte, the unit's step appends `CBUF[CLEN - 1]` at bit 0; nothing else changes. -/
def Obligations.ShiftAppendsTheNextCodeBit : Prop :=
  ∀ s : State, s.pack.state = .run → s.pack.acclen.toNat < 8 → s.pack.clen.toNat > 0 →
    packerStep s = .next { s with pack := { s.pack with
      acc := s.pack.acc <<< 1 ||| BitVec.setWidth 8 (BitVec.ofBool (s.pack.cbuf.getLsbD (s.pack.clen.toNat - 1)))
      acclen := s.pack.acclen + 1
      clen := s.pack.clen - 1 } }

/-- R175: a full byte is offered on the byte port and, with `byte_ready`, transferred whole; nothing else changes. -/
def Obligations.FullByteIsTransferred : Prop :=
  ∀ s : State, s.pack.state = .run → s.pack.acclen = 8 →
    s.pack.byteValid = true ∧ s.pack.byteData = s.pack.acc ∧
    (s.host.byteReady = true → packerStep s = .next { s with pack := { s.pack with
      bytes := s.pack.bytes ++ [s.pack.acc], acc := 0, acclen := 0 } }) ∧
    (s.host.byteReady = false → packerStep s = .next s)

/-- R177, R178: after the flush, with no code in progress, a partial byte gets one more 0 bit on the right, and with none left the run is DONE. -/
def Obligations.FlushPadsAndFinishes : Prop :=
  ∀ s : State, s.pack.state = .run → s.pack.flush = true → s.pack.clen = 0 →
    (0 < s.pack.acclen.toNat → s.pack.acclen.toNat < 8 →
      packerStep s = .next { s with pack := { s.pack with
        acc := s.pack.acc <<< 1, acclen := s.pack.acclen + 1 } }) ∧
    (s.pack.acclen = 0 → packerStep s = .next { s with pack := { s.pack with state := .done } })

/-- R170: the bitpacker's situations in RUN: each enables its own step alone, and a symbol is accepted exactly where the unit has no step; in every other state nothing is enabled. -/
def Obligations.PackerSituationsExcludeEachOther : Prop :=
  ∀ p : Packer,
    (p.state = .run →
      (p.acclen = 8 → (p.outEnabled, p.shiftEnabled, p.padEnabled, p.finishEnabled, p.symReady) =
        (true, false, false, false, false)) ∧
      (p.acclen.toNat < 8 → p.clen.toNat > 0 →
        (p.outEnabled, p.shiftEnabled, p.padEnabled, p.finishEnabled, p.symReady) = (false, true, false, false, false)) ∧
      (p.acclen.toNat < 8 → p.clen = 0 → p.flush = true → p.acclen.toNat > 0 →
        (p.outEnabled, p.shiftEnabled, p.padEnabled, p.finishEnabled, p.symReady) = (false, false, true, false, false)) ∧
      (p.acclen = 0 → p.clen = 0 → p.flush = true →
        (p.outEnabled, p.shiftEnabled, p.padEnabled, p.finishEnabled, p.symReady) = (false, false, false, true, false)) ∧
      (p.acclen.toNat < 8 → p.clen = 0 → p.flush = false →
        (p.outEnabled, p.shiftEnabled, p.padEnabled, p.finishEnabled, p.symReady) = (false, false, false, false, true))) ∧
    (p.state ≠ .run →
      (p.outEnabled, p.shiftEnabled, p.padEnabled, p.finishEnabled, p.symReady) = (false, false, false, false, false))

/-- R181: a whole bitpacker run: from IDLE, with the byte port drained and a decoder that has no step of its own, the symbols pushed between `P_START` and `P_FLUSH` give
the bytes and the end that `packRun` computes from the table; the decoder is untouched. The agenda: log 3. -/
def Obligations.PackerRunIsTheArtifact : Prop :=
  ∀ (s : State) (payload : List Byte),
    s.pack.state = .idle → s.dec.canStep s.host.outReady = false → s.host.byteReady = true →
    s.host.agenda = .regWrite 0x8#4 1#32 :: payload.map .symPush ++ [.regWrite 0x8#4 2#32] →
    ∃ k s', core.run k s = .next s' ∧ s'.dec = s.dec ∧ s'.pack.ct = s.pack.ct ∧
      s'.pack.bytes = (packRun s.pack.ctRead payload).1 ∧
      (match (packRun s.pack.ctRead payload).2 with
        | none => s'.pack.state = .done ∧ s'.pack.errcode = .noError ∧ s'.pack.acclen = 0
        | some y => s'.pack.state = .error ∧ s'.pack.errcode = .unknownSymbol ∧ s'.pack.errinfo = y)

/-! ### The step and the machine as a whole -/

/-- A step runs the decoded instruction: a command written to its register, the entry of an accepted symbol, the node word at `CUR`
when the decoder's turn is a walk or a drained emission, and the next stream bit when it is a walk. Around it the step takes the act off the agenda (log 3). That with an empty agenda the decoder's step comes
before the bitpacker's is the model's choice: log 4. -/
def Obligations.StepRunsTheDecodedInstruction : Prop :=
  ∀ (s : State) (i : Instr) (rest : List Event),
    (∀ a v, s.host.agenda = .regWrite a v :: rest → decode (.command a v) = .ok i →
      step s = exec i (s.withAgenda rest)) ∧
    (∀ y, s.host.agenda = .symPush y :: rest → s.pack.symReady = true →
      decode (.entry y (s.pack.ctRead y).len (s.pack.ctRead y).bits) = .ok i →
      step s = exec i (s.withAgenda rest)) ∧
    (s.host.agenda = .decoderTurn :: rest ∨ (s.host.agenda = [] ∧ rest = []) →
      decode (.node (s.dec.tmRead s.dec.cur)) = .ok i →
      (s.dec.emitPending = true ∧ s.host.outReady = true) ∨ s.dec.walkEnabled = true →
      step s = exec i (s.withAgenda rest)) ∧
    (s.host.agenda = .decoderTurn :: rest ∨ (s.host.agenda = [] ∧ rest = []) →
      decode (.bit (s.dec.shreg.getLsbD 7)) = .ok i → s.dec.walkEnabled = true →
      step s = exec i (s.withAgenda rest))

/-- R239: `raise` enters ERROR with its code and info and changes nothing else, in either unit; the code is the one of R231. -/
def Obligations.RaiseRecordsCodeAndInfoOnly : Prop :=
  (∀ (d : Decoder) (e : DError) (i : NodeIdx),
    d.raise e i = { d with state := .error, errcode := e, errinfo := i } ∧ (d.raise e i).errorLine = true) ∧
  (∀ (p : Packer) (e : PError) (y : Byte),
    p.raise e y = { p with state := .error, errcode := e, errinfo := y } ∧ (p.raise e y).errorLine = true)

/-- R24, R33, R231, R243: the numeric codes of the states and the errors, and the four status lines. -/
def Obligations.CodesAndStatusLinesAreTheTabledOnes : Prop :=
  (DState.idle.bits, DState.validate.bits, DState.run.bits, DState.done.bits, DState.error.bits) =
    (0#3, 1#3, 2#3, 3#3, 4#3) ∧
  (PState.idle.bits, PState.run.bits, PState.done.bits, PState.error.bits) = (0#3, 2#3, 3#3, 4#3) ∧
  (DError.noError.bits, DError.malformedTree.bits, DError.streamCorruption.bits, PError.unknownSymbol.bits,
    DError.noTree.bits, DError.treeMismatch.bits, PError.noError.bits) = (0#4, 1#4, 2#4, 3#4, 4#4, 5#4, 0#4) ∧
  (∀ d : Decoder, (d.doneLine = true ↔ d.state = .done) ∧ (d.errorLine = true ↔ d.state = .error)) ∧
  (∀ p : Packer, (p.doneLine = true ↔ p.state = .done) ∧ (p.errorLine = true ↔ p.state = .error))

/-- R240, R242, R268: a unit in ERROR or DONE stays exactly as it is at every step, but for its clear command, which goes to IDLE with code and
info zeroed, and `rst`. The agenda: log 3. -/
def Obligations.EndedRunIsLeftOnlyByClearOrReset : Prop :=
  ∀ s s' : State, step s = .next s' →
    (s.dec.state = .error ∨ s.dec.state = .done → s'.dec = s.dec ∨
      (s.host.agenda.head? = some (.regWrite 0x0#4 3#32) ∧
        s'.dec = { s.dec with state := .idle, errcode := .noError, errinfo := 0 }) ∨
      (s.host.agenda.head? = some .rst ∧ s'.dec = Decoder.atReset s.dec.tm)) ∧
    (s.pack.state = .error ∨ s.pack.state = .done → s'.pack = s.pack ∨
      (s.host.agenda.head? = some (.regWrite 0x8#4 3#32) ∧
        s'.pack = { s.pack with state := .idle, errcode := .noError, errinfo := 0 }) ∨
      (s.host.agenda.head? = some .rst ∧ s'.pack = Packer.atReset s.pack.ct))

/-- R72 item 5, R75: outside IDLE nothing a run reads can change: the tree memory and the code table never, `D_NNODES` and `D_ROOT` only by `rst`. The agenda: log 3. -/
def Obligations.RunInputsAreFrozen : Prop :=
  ∀ s s' : State, step s = .next s' →
    (s.dec.state ≠ .idle → s'.dec.tm = s.dec.tm ∧
      ((s'.dec.nnodes = s.dec.nnodes ∧ s'.dec.root = s.dec.root) ∨ s.host.agenda.head? = some .rst)) ∧
    (s.pack.state ≠ .idle → s'.pack.ct = s.pack.ct)

/-- R31, R38, R78, R213: a step leaves each output trace as it is, or appends exactly the one item its port offers, or empties it (a start in IDLE or
`rst`). A byte is appended only when eight bits fill it. The agenda: log 3. -/
def Obligations.TracesGrowOneItemAtATime : Prop :=
  ∀ s s' : State, step s = .next s' →
    (s'.dec.out = s.dec.out ∨ (s.dec.outValid = true ∧ s'.dec.out = s.dec.out ++ [s.dec.outSym]) ∨
      (s'.dec.out = [] ∧ (s.host.agenda.head? = some .rst ∨
        (s.dec.state = .idle ∧ s.host.agenda.head? = some (.regWrite 0x0#4 1#32))))) ∧
    (s'.pack.bytes = s.pack.bytes ∨
      (s.pack.byteValid = true ∧ s.pack.acclen = 8 ∧ s'.pack.bytes = s.pack.bytes ++ [s.pack.byteData]) ∨
      (s'.pack.bytes = [] ∧ (s.host.agenda.head? = some .rst ∨
        (s.pack.state = .idle ∧ s.host.agenda.head? = some (.regWrite 0x8#4 1#32)))))

/-- R40: what sets and clears the flags MID, EOS and FLUSH; no step writes one of them as a hidden side effect. The agenda: log 3. -/
def Obligations.FlagsChangeOnlyAsTabled : Prop :=
  ∀ s s' : State, step s = .next s' →
    (s.dec.mid = false → s'.dec.mid = true → s.dec.walkEnabled = true) ∧
    (s.dec.mid = true → s'.dec.mid = false → s.dec.emitPending = true ∨ s.host.agenda.head? = some .rst ∨
      (s.dec.state = .idle ∧ s.host.agenda.head? = some (.regWrite 0x0#4 1#32))) ∧
    (s.dec.eos = false → s'.dec.eos = true →
      s.host.agenda.head? = some (.regWrite 0x0#4 2#32) ∧ (s.dec.state = .validate ∨ s.dec.state = .run)) ∧
    (s.dec.eos = true → s'.dec.eos = false → s.host.agenda.head? = some .rst ∨
      (s.dec.state = .idle ∧ s.host.agenda.head? = some (.regWrite 0x0#4 1#32))) ∧
    (s.pack.flush = false → s'.pack.flush = true →
      s.host.agenda.head? = some (.regWrite 0x8#4 2#32) ∧ s.pack.state = .run) ∧
    (s.pack.flush = true → s'.pack.flush = false → s.host.agenda.head? = some .rst ∨
      (s.pack.state = .idle ∧ s.host.agenda.head? = some (.regWrite 0x8#4 1#32)))

/-- R20, R72 item 4: the units never see each other's state: what an act or a turn makes of one unit depends on that unit and on its host pin alone, and no
act but `rst` changes both. -/
def Obligations.UnitsNeverSeeEachOther : Prop :=
  ∀ (e : Event) (s t s' t' : State), perform e s = .next s' → perform e t = .next t' →
    (s.dec = t.dec → s.host.outReady = t.host.outReady → s'.dec = t'.dec) ∧
    (s.pack = t.pack → s.host.byteReady = t.host.byteReady → s'.pack = t'.pack) ∧
    (s'.dec = s.dec ∨ s'.pack = s.pack ∨ e = .rst)

/-- R53, the invariant every step keeps: canonical memories, counts in range, the scan and the walk inside a legal tree, DONE and
ERROR as they say they are, the packed byte's upper bits 0. From every state that meets it, not only reachable ones. -/
def Obligations.InvIsKeptByEveryStep : Prop :=
  ∀ s s' : State, s.Inv → step s = .next s' → s'.Inv

/-- The invariant holds after reset (R51). -/
def Obligations.InvHoldsAfterReset : Prop := State.reset.Inv

/-- R53: the seven items as the spec lists them, in every state that meets the invariant. -/
def Obligations.InvGivesTheSevenItems : Prop := ∀ s : State, s.Inv → s.R53

/-- R260, R261, R51: `rst` is taken in every state: every register and flag of both units has its reset value, the traces are empty, and the two
memories keep every entry. The agenda: log 3. -/
def Obligations.ResetSetsEveryRegister : Prop :=
  ∀ (s : State) (rest : List Event), s.host.agenda = .rst :: rest →
    step s = .next {
      dec := { tm := s.dec.tm, nnodes := 0, root := 0, state := .idle, vptr := 0, cur := 0, mid := false,
               shreg := 0, bitcnt := 0, eos := false, errcode := .noError, errinfo := 0, out := [] }
      pack := { ct := s.pack.ct, state := .idle, cbuf := 0, clen := 0, acc := 0, acclen := 0, flush := false,
                errcode := .noError, errinfo := 0, bytes := [] }
      host := { s.host with agenda := rest } }

/-- R262: after reset both units are in IDLE, every output line is 0, and nothing happens until the host acts, whatever the memories hold. The agenda: log 3. -/
def Obligations.NothingHappensAfterReset : Prop :=
  ∀ s : State, let r := s.rst
    r.dec.state = .idle ∧ r.pack.state = .idle ∧
    r.dec.inReady = false ∧ r.pack.symReady = false ∧ r.dec.outValid = false ∧ r.pack.byteValid = false ∧
    r.dec.doneLine = false ∧ r.dec.errorLine = false ∧ r.pack.doneLine = false ∧ r.pack.errorLine = false ∧
    (s.host.agenda = [] → ∀ k, core.run k r = .next r) ∧ State.reset.rst = State.reset

/-- R21, R32 as the model holds them (log 11): memories in canonical form with equal entries are equal data, the tree memory's and the
code table's. -/
def Obligations.CanonicalMemoriesAreEqualIfTheyReadEqual : Prop :=
  ∀ (α : Type) (bound : Nat) (m m' : Memory α), Memory.wf bound m = true → Memory.wf bound m' = true →
    (∀ i, Memory.read? m i = Memory.read? m' i) → m = m'

/-! ### Whole runs (R131, R181, R212) -/

/-- R131: the recursion of the walk as the spec writes it. -/
def Obligations.WalkFollowsItsRecursion : Prop :=
  ∀ (T : Arena) (r cur : NodeIdx) (mid : Bool) (bits : List Bool) (out : List Byte),
    (mid = true ∧ nodeTag (T cur) = true →
      walk T r cur mid bits out = walk T r r false bits (out ++ [nodeSym (T cur)])) ∧
    (¬(mid = true ∧ nodeTag (T cur) = true) →
      (bits = [] → walk T r cur mid bits out = (out, if mid then .error .streamCorruption cur else .done)) ∧
      (∀ b rest, bits = b :: rest →
        (nodeTag (T cur) = false → walk T r cur mid bits out =
          walk T r (if b = false then nodeLeft (T cur) else nodeRight (T cur)) true rest out) ∧
        (nodeTag (T cur) = true → b = false → walk T r cur mid bits out = walk T r cur true rest out) ∧
        (nodeTag (T cur) = true → b = true →
          walk T r cur mid bits out = (out, .error .treeMismatch cur))))

/-- R131, R78, R214: whatever the decoder's own step does in RUN, and whenever a byte is accepted, the result the run will have does not change; a step that ends
the run ends it with that result. So the result depends on the bytes alone, not on how the host's acts and the decoder's steps interleave. -/
def Obligations.DecoderStepsKeepTheRunsResult : Prop :=
  ∀ s s' : State, s.dec.state = .run → s.dec.bitcnt.toNat ≤ 8 →
    (decoderStep s = .next s' → ∀ bytes : List Byte,
      (s'.dec.state = .run → runResult s'.dec bytes = runResult s.dec bytes) ∧
      (s'.dec.state ≠ .run → bytes = [] ∨ (s'.dec.state = .error ∧ s'.dec.errcode = .treeMismatch) →
        ∃ e, runResult s.dec bytes = (s'.dec.out, e) ∧ Shows s'.dec e)) ∧
    (∀ (b : Byte) (bytes : List Byte), s.dec.inReady = true →
      runResult (s.dec.inPush b) bytes = runResult s.dec (b :: bytes))

/-- R131, R152: a decoder in RUN at its root, given the bytes and then `D_EOS` with its output drained, ends within `17 * (number of bytes) + 2` steps with
the output and the end that `decode_bits` gives; the bitpacker is untouched. The agenda: log 3. That a bitpacker which also has a step waits
meanwhile, so that it is untouched and the bound holds of the machine's steps, is the model's choice: log 4. -/
def Obligations.DecoderRunIsTheWalk : Prop :=
  ∀ (s : State) (bytes : List Byte),
    s.dec.state = .run → s.dec.cur = s.dec.root → s.dec.mid = false → s.dec.bitcnt = 0 → s.dec.eos = false →
    s.dec.out = [] → s.host.outReady = true →
    s.host.agenda = bytes.map .inPush ++ [.regWrite 0x0#4 2#32] →
    ∃ k s', k ≤ 17 * bytes.length + 2 ∧ core.run k s = .next s' ∧ s'.pack = s.pack ∧
      s'.dec.out = (decodeBits s.dec.tmRead s.dec.root (bytes.flatMap streamBits)).1 ∧
      Shows s'.dec (decodeBits s.dec.tmRead s.dec.root (bytes.flatMap streamBits)).2

/-- R202, R205: the codes of a tree with two or more leaves are prefix-free: where the code of one leaf begins that of another, they are the same leaf. -/
def Obligations.TreeCodesArePrefixFree : Prop :=
  ∀ (l r : PrefixTree) (i j : Nat) (c d : Byte × List Bool),
    (PrefixTree.node l r).codes[i]? = some c → (PrefixTree.node l r).codes[j]? = some d → c.2 <+: d.2 → i = j

/-- R132, R211, R212: the round trip. For a tree held by an arena and the table of its codes, decoding the artifact of a payload of its symbols gives the payload, then
at most as many symbols as there are padding bits, and ends DONE or with StreamCorruption; without padding it gives the payload exactly and ends DONE; a single-leaf tree
gives its symbol once for every bit and ends DONE. -/
def Obligations.RoundTripGivesThePayloadFirst : Prop :=
  ∀ (T : Arena) (r : NodeIdx) (t : PrefixTree) (table : Byte → CodeEntry) (payload : List Byte),
    Represents T t r → TableOf table t → (∀ y ∈ payload, y ∈ t.symbols) →
    (packRun table payload).2 = none ∧
    ∃ extra e,
      decodeBits T r ((packRun table payload).1.flatMap streamBits) = (payload ++ extra, e) ∧
      extra.length ≤ padLength (payloadBits table payload) ∧ extra.length ≤ 7 ∧
      (e = .done ∨ ∃ i, e = .error .streamCorruption i) ∧
      ((payloadBits table payload).length % 8 = 0 → extra = [] ∧ e = .done) ∧
      (∀ y, t = .leaf y → e = .done ∧ payload ++ extra = List.replicate (8 * ((payload.length + 7) / 8)) y)

/-- R151, R183, R212, on the machine itself: with a legal tree and the table of its codes loaded and both output ports drained, packing a payload of the tree's
symbols reaches DONE, and decoding the bytes it transferred ends DONE or with StreamCorruption, the payload standing first in the output with at most seven symbols
after it; StreamCorruption only inside a code and only with padding, which a payload of whole bytes does not have; an empty payload gives no byte and no symbol; a single-leaf
tree gives its symbol once for every bit. The agenda: log 3. -/
def Obligations.MachineRoundTripGivesThePayloadFirst : Prop :=
  ∀ (s : State) (t : PrefixTree) (payload : List Byte),
    s.dec.state = .idle → s.pack.state = .idle → s.host.outReady = true → s.host.byteReady = true →
    s.dec.nnodes.toNat ≤ 512 → s.dec.root.toNat < s.dec.nnodes.toNat →
    (∀ i : NodeIdx, i.toNat < s.dec.nnodes.toNat → nodeOk (s.dec.tmRead i) s.dec.nnodes = true) →
    Represents s.dec.tmRead t s.dec.root → TableOf s.pack.ctRead t → (∀ y ∈ payload, y ∈ t.symbols) →
    s.host.agenda = .regWrite 0x8#4 1#32 :: payload.map .symPush ++ [.regWrite 0x8#4 2#32] →
    ∃ k s₁, core.run k s = .next s₁ ∧ s₁.pack.state = .done ∧
    ∃ k' s₂,
      core.run k' (s₁.withAgenda (.regWrite 0x0#4 1#32 :: s₁.pack.bytes.map .inPush ++ [.regWrite 0x0#4 2#32])) =
        .next s₂ ∧
      payload <+: s₂.dec.out ∧ s₂.dec.out.length ≤ payload.length + 7 ∧
      (s₂.dec.state = .done ∨ (s₂.dec.state = .error ∧ s₂.dec.errcode = .streamCorruption ∧ s₂.dec.mid = true ∧
        (payloadBits s.pack.ctRead payload).length % 8 ≠ 0)) ∧
      ((payloadBits s.pack.ctRead payload).length % 8 = 0 → s₂.dec.out = payload) ∧
      (payload = [] → s₁.pack.bytes = [] ∧ s₂.dec.out = []) ∧
      (∀ y, t = .leaf y →
        s₂.dec.state = .done ∧ s₂.dec.out = List.replicate (8 * ((payload.length + 7) / 8)) y)

/-- R201, R206, R207, with R6: a proper tree of `L` leaves loaded in `n` entries has `n = 2L - 1` and `L` at most 256; validation finds nothing
illegal in it and its root is one of them; every path has at most `L - 1` bits and every code 1 to 255; and the entries the host writes for it
are a table of its codes. So a loaded proper tree and its table meet what the round trips above ask of an arena and a table. -/
def Obligations.ProperTreesLoadAndHaveATable : Prop :=
  ∀ (T : Arena) (n : NodeCount) (t : PrefixTree) (r : NodeIdx), LoadedTree T n t r →
    leastIllegal T n = none ∧ r.toNat < n.toNat ∧
    n.toNat + 1 = 2 * t.symbols.length ∧ t.symbols.length ≤ 256 ∧
    (∀ p ∈ t.paths, p.2.length + 1 ≤ t.symbols.length) ∧
    (∀ p ∈ t.codes, 1 ≤ p.2.length ∧ p.2.length ≤ 255) ∧
    TableOf t.table t
end

