-- ==== Sys2Proof/Laws/Bits.lean ====
section
/-! SUPPORT. What the one-bit shift does, bit by bit and as a number, and the bit strings of a byte and of a code. -/

namespace Sys2Proof.Machine

/-- The value of a byte with a bit shifted in. -/
theorem shiftIn_toNat (v : Byte) (b : Bool) : (shiftIn v b).toNat = v.toNat % 128 * 2 + b.toNat := by
  simp [shiftIn, BitVec.toNat_concat]

/-- Bit 0 is the bit shifted in, every other bit moves up by one, and the top bit leaves (R28, R35). -/
theorem shiftIn_getLsbD (v : Byte) (b : Bool) (k : Nat) :
    (shiftIn v b).getLsbD k = if k = 0 then b else decide (k < 8) && v.getLsbD (k - 1) := by
  cases k with
  | zero => simp [shiftIn]
  | succ k =>
    simp only [shiftIn, BitVec.getLsbD_concat, BitVec.getLsbD_setWidth]
    simp [show (k < 7) = (k + 1 < 8) from propext (by omega)]

/-- A zero shifted in is a left shift by one. -/
theorem shiftIn_false (v : Byte) : shiftIn v false = v <<< 1 := by
  apply BitVec.eq_of_toNat_eq
  rw [shiftIn_toNat, BitVec.toNat_shiftLeft, Nat.shiftLeft_eq]
  have := v.isLt
  simp only [Bool.toNat_false]
  omega

/-- The first `n` stream bits of a byte. -/
theorem streamBits_take (v : Byte) {n : Nat} (hn : n ≤ 8) :
    (streamBits v).take n = (List.range n).map (streamBit v) := by
  rw [streamBits, ← List.map_take, List.take_range, Nat.min_eq_left hn]

/-- The first stream bit of a byte is its bit 7, and the others are those of the byte shifted left (R28, R96). -/
theorem streamBits_take_succ (v : Byte) {n : Nat} (hn : n < 8) :
    (streamBits v).take (n + 1) = v.getLsbD 7 :: (streamBits (shiftIn v false)).take n := by
  rw [streamBits_take v (by omega), streamBits_take _ (by omega), List.range_succ_eq_map, List.map_cons, List.map_map]
  refine congrArg _ (List.map_congr_left fun j hj => ?_)
  have hj : j < n := List.mem_range.mp hj
  simp only [Function.comp, streamBit, shiftIn_getLsbD, Nat.succ_eq_add_one]
  rw [if_neg (by omega), decide_eq_true (by omega), Bool.true_and]
  congr 1

/-- A byte has eight stream bits. -/
@[simp] theorem streamBits_length (v : Byte) : (streamBits v).length = 8 := by simp [streamBits]

/-- A code has as many bits as its LEN says. -/
@[simp] theorem codeBits_length (n : CodeLen) (c : CodeField) : (codeBits n c).length = n.toNat := by
  simp [codeBits]

end Sys2Proof.Machine
end

