-- ==== Sys2Proof/Laws/Encoding.lean ====
section
/-! SUPPORT. The fields of a node word built from its fields (R91, R97), and what the node decoder accepts. -/

namespace Sys2Proof

variable (op : BitVec 6) (l r : NodeIdx) (y : Byte)

/-- The value of a node word in its fields (R102: `0x60000000 + l * 0x20000 + r * 0x100` for an INT). -/
theorem nodeWord_toNat : (nodeWord op l r y).toNat =
    op.toNat * 2 ^ 26 + l.toNat * 2 ^ 17 + r.toNat * 2 ^ 8 + y.toNat := by
  have hy := y.isLt
  have hr := r.isLt
  have hl := l.isLt
  simp only [nodeWord, BitVec.toNat_append]
  rw [← Nat.shiftLeft_add_eq_or_of_lt hl, ← Nat.shiftLeft_add_eq_or_of_lt hr, ← Nat.shiftLeft_add_eq_or_of_lt hy]
  simp only [Nat.shiftLeft_eq]
  omega

@[simp] theorem nodeOpcode_nodeWord : nodeOpcode (nodeWord op l r y) = op := by
  apply BitVec.eq_of_toNat_eq
  have hy := y.isLt; have hr := r.isLt; have hl := l.isLt; have ho := op.isLt
  simp only [nodeOpcode, BitVec.extractLsb'_toNat, nodeWord_toNat, Nat.shiftRight_eq_div_pow]
  omega

@[simp] theorem nodeLeft_nodeWord : nodeLeft (nodeWord op l r y) = l := by
  apply BitVec.eq_of_toNat_eq
  have hy := y.isLt; have hr := r.isLt; have hl := l.isLt; have ho := op.isLt
  simp only [nodeLeft, BitVec.extractLsb'_toNat, nodeWord_toNat, Nat.shiftRight_eq_div_pow]
  omega

@[simp] theorem nodeRight_nodeWord : nodeRight (nodeWord op l r y) = r := by
  apply BitVec.eq_of_toNat_eq
  have hy := y.isLt; have hr := r.isLt; have hl := l.isLt; have ho := op.isLt
  simp only [nodeRight, BitVec.extractLsb'_toNat, nodeWord_toNat, Nat.shiftRight_eq_div_pow]
  omega

@[simp] theorem nodeSym_nodeWord : nodeSym (nodeWord op l r y) = y := by
  apply BitVec.eq_of_toNat_eq
  have hy := y.isLt; have hr := r.isLt; have hl := l.isLt; have ho := op.isLt
  simp only [nodeSym, BitVec.extractLsb'_toNat, nodeWord_toNat, Nat.shiftRight_eq_div_pow]
  omega

/-- A word is its fields put together. -/
theorem nodeWord_fields (w : NodeWord) : nodeWord (nodeOpcode w) (nodeLeft w) (nodeRight w) (nodeSym w) = w := by
  apply BitVec.eq_of_toNat_eq
  have hw := w.isLt
  rw [nodeWord_toNat]
  simp only [nodeOpcode, nodeLeft, nodeRight, nodeSym, BitVec.extractLsb'_toNat, Nat.shiftRight_eq_div_pow]
  omega

/-- The flag bits are the opcode's upper bits. -/
theorem nodeTag_eq (w : NodeWord) : nodeTag w = (nodeOpcode w).getLsbD 5 := by
  simp [nodeTag, nodeOpcode]

theorem nodeLV_eq (w : NodeWord) : nodeLV w = (nodeOpcode w).getLsbD 4 := by
  simp [nodeLV, nodeOpcode]

theorem nodeRV_eq (w : NodeWord) : nodeRV w = (nodeOpcode w).getLsbD 3 := by
  simp [nodeRV, nodeOpcode]

theorem nodeRSV_eq (w : NodeWord) : nodeRSV w = (nodeOpcode w).extractLsb' 0 3 := by
  ext i h
  simp [nodeRSV, nodeOpcode, BitVec.getLsbD_extractLsb']
  omega

/-- On a word that decodes, the walk runs the decoded instruction (R92, R120; log 9). -/
theorem nodeInstr_of_decodeNode {w : NodeWord} {i : Instr} (h : decodeNode w = .ok i) : nodeInstr w = i := by
  unfold decodeNode at h
  split_ifs at h with h1 h2
  · injection h with h
    rw [← h, nodeInstr, nodeTag_eq, h1]; rfl
  · injection h with h
    rw [← h, nodeInstr, nodeTag_eq, h2]; rfl

end Sys2Proof
end

