-- ==== Sys2Proof/Laws/Memory.lean ====
section
/-! SUPPORT. What the memory operations do, said once: a read after a write, the canonical form is kept, and equal contents in
canonical form are equal lists. -/

namespace Sys2Proof.Machine

variable {α : Type}

/-- A read after a write: the entry written reads as the value, every other entry as before. -/
theorem Memory.read?_write (m : Memory α) (i j : Nat) (v : α) :
    Memory.read? (Memory.write m i v) j = if i = j then some v else Memory.read? m j := by
  induction m with
  | nil => simp [Memory.write, Memory.read?]
  | cons c m ih =>
    obtain ⟨k, u⟩ := c
    simp only [Memory.write]
    split_ifs with h1 h2 h3 h4
    · simp [Memory.read?, h2]
    · simp [Memory.read?, h2]
    · subst h3; simp [Memory.read?, h4]
    · subst h3; simp [Memory.read?, h4]
    · subst_vars; simp [Memory.read?, ih]; omega
    · simp [Memory.read?, *]

/-- A lower starting bound is a weaker demand. -/
theorem Memory.wfFrom_mono {bound lo lo' : Nat} {m : Memory α} (h : Memory.wfFrom bound lo m = true) (hl : lo' ≤ lo) :
    Memory.wfFrom bound lo' m = true := by
  cases m with
  | nil => rfl
  | cons c m =>
    simp only [Memory.wfFrom, Bool.and_eq_true, decide_eq_true_eq] at h ⊢
    exact ⟨⟨by omega, h.1.2⟩, h.2⟩

/-- A write of an index in range keeps the canonical form, from any starting bound not above the index. -/
theorem Memory.wfFrom_write {bound lo i : Nat} {m : Memory α} (v : α) (h : Memory.wfFrom bound lo m = true)
    (hlo : lo ≤ i) (hi : i < bound) : Memory.wfFrom bound lo (Memory.write m i v) = true := by
  induction m generalizing lo with
  | nil => simp [Memory.write, Memory.wfFrom, hlo, hi]
  | cons c m ih =>
    obtain ⟨k, u⟩ := c
    simp only [Memory.wfFrom, Bool.and_eq_true, decide_eq_true_eq] at h
    simp only [Memory.write]
    split_ifs with h1 h2
    · simp only [Memory.wfFrom, Bool.and_eq_true, decide_eq_true_eq]
      exact ⟨⟨hlo, hi⟩, ⟨by omega, h.1.2⟩, h.2⟩
    · subst h2
      simp only [Memory.wfFrom, Bool.and_eq_true, decide_eq_true_eq]
      exact ⟨⟨hlo, hi⟩, h.2⟩
    · simp only [Memory.wfFrom, Bool.and_eq_true, decide_eq_true_eq]
      exact ⟨h.1, ih h.2 (by omega)⟩

/-- A write of an index in range keeps the canonical form. -/
theorem Memory.wf_write {bound i : Nat} {m : Memory α} (v : α) (h : Memory.wf bound m = true) (hi : i < bound) :
    Memory.wf bound (Memory.write m i v) = true :=
  Memory.wfFrom_write v h (Nat.zero_le i) hi

/-- The memory with nothing written is in canonical form. -/
@[simp] theorem Memory.wf_nil (bound : Nat) : Memory.wf bound ([] : Memory α) = true := rfl

/-- `TM_WRITE` and `CT_WRITE` keep the canonical form. -/
theorem Decoder.wf_tmStore {d : Decoder} (i : NodeIdx) (w : NodeWord) (h : Memory.wf Config.tmDepth d.tm = true) :
    Memory.wf Config.tmDepth (d.tmStore i w).tm = true :=
  Memory.wf_write w h i.isLt

theorem Packer.wf_ctStore {p : Packer} (y : Byte) (l : CodeLen) (c : CodeField)
    (h : Memory.wf Config.ctDepth p.ct = true) : Memory.wf Config.ctDepth (p.ctStore y l c).ct = true :=
  Memory.wf_write _ h y.isLt

/-- `TM[j]` after `TM[i] <- w`. -/
theorem Decoder.tmRead_tmStore (d : Decoder) (i j : NodeIdx) (w : NodeWord) :
    (d.tmStore i w).tmRead j = if i = j then w else d.tmRead j := by
  simp only [Decoder.tmRead, Decoder.tmStore, Memory.read?_write, BitVec.toNat_inj]
  split_ifs <;> rfl

/-- `CT[t]` after `CT[y] <- (l, c)`. -/
theorem Packer.ctRead_ctStore (p : Packer) (y t : Byte) (l : CodeLen) (c : CodeField) :
    (p.ctStore y l c).ctRead t = if y = t then ⟨l, c⟩ else p.ctRead t := by
  simp only [Packer.ctRead, Packer.ctStore, Memory.read?_write, BitVec.toNat_inj]
  split_ifs <;> rfl

/-- `TM` reads depend on `tm` alone. -/
theorem Decoder.tmRead_congr {d d' : Decoder} (h : d'.tm = d.tm) (i : NodeIdx) : d'.tmRead i = d.tmRead i := by
  simp only [Decoder.tmRead, h]

/-- `CT` reads depend on `ct` alone. -/
theorem Packer.ctRead_congr {p p' : Packer} (h : p'.ct = p.ct) (y : Byte) : p'.ctRead y = p.ctRead y := by
  simp only [Packer.ctRead, h]

/-- No entry below the starting bound is listed. -/
theorem Memory.read?_of_lt {bound lo i : Nat} {m : Memory α} (h : Memory.wfFrom bound lo m = true) (hi : i < lo) :
    Memory.read? m i = none := by
  induction m generalizing lo with
  | nil => rfl
  | cons c m ih =>
    obtain ⟨k, u⟩ := c
    simp only [Memory.wfFrom, Bool.and_eq_true, decide_eq_true_eq] at h
    rw [Memory.read?, if_neg (by omega)]
    exact ih h.2 (by omega)

end Sys2Proof.Machine
end

