-- ==== Sys2Proof/Laws/State.lean ====
section
/-! SUPPORT. One lemma for each field of each update of the state, true by unfolding, so that no later proof unfolds an update. -/

namespace Sys2Proof.Machine

/-! ### Updates of the whole state -/

@[simp] theorem State.mapDec_dec (s : State) (f) : (s.mapDec f).dec = f s.dec := rfl
@[simp] theorem State.mapDec_pack (s : State) (f) : (s.mapDec f).pack = s.pack := rfl
@[simp] theorem State.mapDec_host (s : State) (f) : (s.mapDec f).host = s.host := rfl
@[simp] theorem State.mapPack_dec (s : State) (f) : (s.mapPack f).dec = s.dec := rfl
@[simp] theorem State.mapPack_pack (s : State) (f) : (s.mapPack f).pack = f s.pack := rfl
@[simp] theorem State.mapPack_host (s : State) (f) : (s.mapPack f).host = s.host := rfl
@[simp] theorem State.withAgenda_dec (s : State) (a) : (s.withAgenda a).dec = s.dec := rfl
@[simp] theorem State.withAgenda_pack (s : State) (a) : (s.withAgenda a).pack = s.pack := rfl
@[simp] theorem State.withAgenda_agenda (s : State) (a) : (s.withAgenda a).host.agenda = a := rfl
@[simp] theorem State.withAgenda_outReady (s : State) (a) : (s.withAgenda a).host.outReady = s.host.outReady := rfl
@[simp] theorem State.withAgenda_byteReady (s : State) (a) : (s.withAgenda a).host.byteReady = s.host.byteReady := rfl
@[simp] theorem State.withAgenda_reads (s : State) (a) : (s.withAgenda a).host.reads = s.host.reads := rfl
@[simp] theorem State.recordRead_dec (s : State) (a) : (s.recordRead a).dec = s.dec := rfl
@[simp] theorem State.recordRead_pack (s : State) (a) : (s.recordRead a).pack = s.pack := rfl
@[simp] theorem State.rst_dec (s : State) : s.rst.dec = Decoder.atReset s.dec.tm := rfl
@[simp] theorem State.rst_pack (s : State) : s.rst.pack = Packer.atReset s.pack.ct := rfl
@[simp] theorem State.rst_host (s : State) : s.rst.host = s.host := rfl

/-! ### Decoder updates -/

@[simp] theorem Decoder.raise_tm (d : Decoder) (e i) : (d.raise e i).tm = d.tm := rfl
@[simp] theorem Decoder.raise_nnodes (d : Decoder) (e i) : (d.raise e i).nnodes = d.nnodes := rfl
@[simp] theorem Decoder.raise_root (d : Decoder) (e i) : (d.raise e i).root = d.root := rfl
@[simp] theorem Decoder.raise_state (d : Decoder) (e i) : (d.raise e i).state = .error := rfl
@[simp] theorem Decoder.raise_vptr (d : Decoder) (e i) : (d.raise e i).vptr = d.vptr := rfl
@[simp] theorem Decoder.raise_cur (d : Decoder) (e i) : (d.raise e i).cur = d.cur := rfl
@[simp] theorem Decoder.raise_mid (d : Decoder) (e i) : (d.raise e i).mid = d.mid := rfl
@[simp] theorem Decoder.raise_shreg (d : Decoder) (e i) : (d.raise e i).shreg = d.shreg := rfl
@[simp] theorem Decoder.raise_bitcnt (d : Decoder) (e i) : (d.raise e i).bitcnt = d.bitcnt := rfl
@[simp] theorem Decoder.raise_eos (d : Decoder) (e i) : (d.raise e i).eos = d.eos := rfl
@[simp] theorem Decoder.raise_errcode (d : Decoder) (e i) : (d.raise e i).errcode = e := rfl
@[simp] theorem Decoder.raise_errinfo (d : Decoder) (e i) : (d.raise e i).errinfo = i := rfl
@[simp] theorem Decoder.raise_out (d : Decoder) (e i) : (d.raise e i).out = d.out := rfl

@[simp] theorem Decoder.consumeBit_tm (d : Decoder) : d.consumeBit.tm = d.tm := rfl
@[simp] theorem Decoder.consumeBit_nnodes (d : Decoder) : d.consumeBit.nnodes = d.nnodes := rfl
@[simp] theorem Decoder.consumeBit_root (d : Decoder) : d.consumeBit.root = d.root := rfl
@[simp] theorem Decoder.consumeBit_state (d : Decoder) : d.consumeBit.state = d.state := rfl
@[simp] theorem Decoder.consumeBit_cur (d : Decoder) : d.consumeBit.cur = d.cur := rfl
@[simp] theorem Decoder.consumeBit_mid (d : Decoder) : d.consumeBit.mid = true := rfl
@[simp] theorem Decoder.consumeBit_shreg (d : Decoder) : d.consumeBit.shreg = shiftIn d.shreg false := rfl
@[simp] theorem Decoder.consumeBit_bitcnt (d : Decoder) : d.consumeBit.bitcnt = d.bitcnt - 1 := rfl
@[simp] theorem Decoder.consumeBit_eos (d : Decoder) : d.consumeBit.eos = d.eos := rfl
@[simp] theorem Decoder.consumeBit_errcode (d : Decoder) : d.consumeBit.errcode = d.errcode := rfl
@[simp] theorem Decoder.consumeBit_errinfo (d : Decoder) : d.consumeBit.errinfo = d.errinfo := rfl
@[simp] theorem Decoder.consumeBit_out (d : Decoder) : d.consumeBit.out = d.out := rfl
@[simp] theorem Decoder.consumeBit_vptr (d : Decoder) : d.consumeBit.vptr = d.vptr := rfl

@[simp] theorem Decoder.descend_cur (d : Decoder) (c) : (d.descend c).cur = c := rfl
@[simp] theorem Decoder.descend_tm (d : Decoder) (c) : (d.descend c).tm = d.tm := rfl
@[simp] theorem Decoder.descend_nnodes (d : Decoder) (c) : (d.descend c).nnodes = d.nnodes := rfl
@[simp] theorem Decoder.descend_root (d : Decoder) (c) : (d.descend c).root = d.root := rfl
@[simp] theorem Decoder.descend_state (d : Decoder) (c) : (d.descend c).state = d.state := rfl
@[simp] theorem Decoder.descend_mid (d : Decoder) (c) : (d.descend c).mid = true := rfl
@[simp] theorem Decoder.descend_shreg (d : Decoder) (c) : (d.descend c).shreg = shiftIn d.shreg false := rfl
@[simp] theorem Decoder.descend_bitcnt (d : Decoder) (c) : (d.descend c).bitcnt = d.bitcnt - 1 := rfl
@[simp] theorem Decoder.descend_eos (d : Decoder) (c) : (d.descend c).eos = d.eos := rfl
@[simp] theorem Decoder.descend_errcode (d : Decoder) (c) : (d.descend c).errcode = d.errcode := rfl
@[simp] theorem Decoder.descend_errinfo (d : Decoder) (c) : (d.descend c).errinfo = d.errinfo := rfl
@[simp] theorem Decoder.descend_out (d : Decoder) (c) : (d.descend c).out = d.out := rfl
@[simp] theorem Decoder.descend_vptr (d : Decoder) (c) : (d.descend c).vptr = d.vptr := rfl

@[simp] theorem Decoder.emit_tm (d : Decoder) (y) : (d.emit y).tm = d.tm := rfl
@[simp] theorem Decoder.emit_nnodes (d : Decoder) (y) : (d.emit y).nnodes = d.nnodes := rfl
@[simp] theorem Decoder.emit_root (d : Decoder) (y) : (d.emit y).root = d.root := rfl
@[simp] theorem Decoder.emit_state (d : Decoder) (y) : (d.emit y).state = d.state := rfl
@[simp] theorem Decoder.emit_cur (d : Decoder) (y) : (d.emit y).cur = d.root := rfl
@[simp] theorem Decoder.emit_mid (d : Decoder) (y) : (d.emit y).mid = false := rfl
@[simp] theorem Decoder.emit_shreg (d : Decoder) (y) : (d.emit y).shreg = d.shreg := rfl
@[simp] theorem Decoder.emit_bitcnt (d : Decoder) (y) : (d.emit y).bitcnt = d.bitcnt := rfl
@[simp] theorem Decoder.emit_eos (d : Decoder) (y) : (d.emit y).eos = d.eos := rfl
@[simp] theorem Decoder.emit_errcode (d : Decoder) (y) : (d.emit y).errcode = d.errcode := rfl
@[simp] theorem Decoder.emit_errinfo (d : Decoder) (y) : (d.emit y).errinfo = d.errinfo := rfl
@[simp] theorem Decoder.emit_out (d : Decoder) (y) : (d.emit y).out = d.out ++ [y] := rfl
@[simp] theorem Decoder.emit_vptr (d : Decoder) (y) : (d.emit y).vptr = d.vptr := rfl

@[simp] theorem Decoder.acknowledge_state (d : Decoder) : d.acknowledge.state = .idle := rfl
@[simp] theorem Decoder.acknowledge_errcode (d : Decoder) : d.acknowledge.errcode = .noError := rfl
@[simp] theorem Decoder.acknowledge_errinfo (d : Decoder) : d.acknowledge.errinfo = 0 := rfl
@[simp] theorem Decoder.acknowledge_tm (d : Decoder) : d.acknowledge.tm = d.tm := rfl
@[simp] theorem Decoder.acknowledge_nnodes (d : Decoder) : d.acknowledge.nnodes = d.nnodes := rfl
@[simp] theorem Decoder.acknowledge_root (d : Decoder) : d.acknowledge.root = d.root := rfl
@[simp] theorem Decoder.acknowledge_bitcnt (d : Decoder) : d.acknowledge.bitcnt = d.bitcnt := rfl
@[simp] theorem Decoder.acknowledge_out (d : Decoder) : d.acknowledge.out = d.out := rfl

@[simp] theorem Decoder.initRun_tm (d : Decoder) : d.initRun.tm = d.tm := rfl
@[simp] theorem Decoder.initRun_nnodes (d : Decoder) : d.initRun.nnodes = d.nnodes := rfl
@[simp] theorem Decoder.initRun_root (d : Decoder) : d.initRun.root = d.root := rfl
@[simp] theorem Decoder.initRun_cur (d : Decoder) : d.initRun.cur = d.root := rfl
@[simp] theorem Decoder.initRun_mid (d : Decoder) : d.initRun.mid = false := rfl
@[simp] theorem Decoder.initRun_bitcnt (d : Decoder) : d.initRun.bitcnt = 0 := rfl
@[simp] theorem Decoder.initRun_eos (d : Decoder) : d.initRun.eos = false := rfl
@[simp] theorem Decoder.initRun_vptr (d : Decoder) : d.initRun.vptr = 0 := rfl
@[simp] theorem Decoder.initRun_out (d : Decoder) : d.initRun.out = [] := rfl
@[simp] theorem Decoder.initRun_errcode (d : Decoder) : d.initRun.errcode = .noError := rfl
@[simp] theorem Decoder.initRun_errinfo (d : Decoder) : d.initRun.errinfo = 0 := rfl

/-! ### Bitpacker updates -/

@[simp] theorem Packer.raise_state (p : Packer) (e y) : (p.raise e y).state = .error := rfl
@[simp] theorem Packer.raise_errcode (p : Packer) (e y) : (p.raise e y).errcode = e := rfl
@[simp] theorem Packer.raise_errinfo (p : Packer) (e y) : (p.raise e y).errinfo = y := rfl
@[simp] theorem Packer.raise_ct (p : Packer) (e y) : (p.raise e y).ct = p.ct := rfl
@[simp] theorem Packer.raise_cbuf (p : Packer) (e y) : (p.raise e y).cbuf = p.cbuf := rfl
@[simp] theorem Packer.raise_clen (p : Packer) (e y) : (p.raise e y).clen = p.clen := rfl
@[simp] theorem Packer.raise_acc (p : Packer) (e y) : (p.raise e y).acc = p.acc := rfl
@[simp] theorem Packer.raise_acclen (p : Packer) (e y) : (p.raise e y).acclen = p.acclen := rfl
@[simp] theorem Packer.raise_flush (p : Packer) (e y) : (p.raise e y).flush = p.flush := rfl
@[simp] theorem Packer.raise_bytes (p : Packer) (e y) : (p.raise e y).bytes = p.bytes := rfl

@[simp] theorem Packer.appendBit_acc (p : Packer) (b) : (p.appendBit b).acc = shiftIn p.acc b := rfl
@[simp] theorem Packer.appendBit_acclen (p : Packer) (b) : (p.appendBit b).acclen = p.acclen + 1 := rfl
@[simp] theorem Packer.appendBit_ct (p : Packer) (b) : (p.appendBit b).ct = p.ct := rfl
@[simp] theorem Packer.appendBit_state (p : Packer) (b) : (p.appendBit b).state = p.state := rfl
@[simp] theorem Packer.appendBit_cbuf (p : Packer) (b) : (p.appendBit b).cbuf = p.cbuf := rfl
@[simp] theorem Packer.appendBit_clen (p : Packer) (b) : (p.appendBit b).clen = p.clen := rfl
@[simp] theorem Packer.appendBit_flush (p : Packer) (b) : (p.appendBit b).flush = p.flush := rfl
@[simp] theorem Packer.appendBit_errcode (p : Packer) (b) : (p.appendBit b).errcode = p.errcode := rfl
@[simp] theorem Packer.appendBit_errinfo (p : Packer) (b) : (p.appendBit b).errinfo = p.errinfo := rfl
@[simp] theorem Packer.appendBit_bytes (p : Packer) (b) : (p.appendBit b).bytes = p.bytes := rfl

@[simp] theorem Packer.acknowledge_state (p : Packer) : p.acknowledge.state = .idle := rfl
@[simp] theorem Packer.acknowledge_errcode (p : Packer) : p.acknowledge.errcode = .noError := rfl
@[simp] theorem Packer.acknowledge_errinfo (p : Packer) : p.acknowledge.errinfo = 0 := rfl
@[simp] theorem Packer.acknowledge_ct (p : Packer) : p.acknowledge.ct = p.ct := rfl
@[simp] theorem Packer.acknowledge_acc (p : Packer) : p.acknowledge.acc = p.acc := rfl
@[simp] theorem Packer.acknowledge_acclen (p : Packer) : p.acknowledge.acclen = p.acclen := rfl
@[simp] theorem Packer.acknowledge_bytes (p : Packer) : p.acknowledge.bytes = p.bytes := rfl

end Sys2Proof.Machine
end

