-- ==== Sys2Proof/Laws/Moves.lean ====
section
/-! SUPPORT. What one step can do to each unit, said once: every later fact about steps is a case analysis of `DecoderMove` and
`PackerMove`. -/

namespace Sys2Proof.Machine

/-- The ways one step can change the decoder (R7, R120, R149), where `a` is the host's next act, if it has one: what
needs an act of the host says which. -/
inductive DecoderMove (a : Option Event) (d : Decoder) : Decoder → Prop where
  | stay : DecoderMove a d d
  | scan (h : d.state = .validate) : DecoderMove a d d.vStep
  | emit (h : d.emitPending = true) : DecoderMove a d (d.emit (nodeSym d.curWord))
  | descend (hw : d.walkEnabled = true) (ht : d.curTag = false) :
      DecoderMove a d (d.descend (if d.nextBit then nodeRight d.curWord else nodeLeft d.curWord))
  | leafBit (hw : d.walkEnabled = true) (ht : d.curTag = true) : DecoderMove a d (d.walkAtLeaf d.nextBit)
  | finish (h : d.endEnabled = true) : DecoderMove a d d.finish
  | push (b : Byte) (h : d.inReady = true) (ha : a = some (.inPush b)) :
      DecoderMove a d { d with shreg := b, bitcnt := 8 }
  | load (i : NodeIdx) (w : NodeWord) (h : d.state = .idle) (ha : a = some (.tmWrite i w)) :
      DecoderMove a d (d.tmStore i w)
  | count (v : RegWord) (h : d.state = .idle) (hv : v.toNat ≤ 512) :
      DecoderMove a d { d with nnodes := v.setWidth 10 }
  | rootSet (v : RegWord) (h : d.state = .idle) (hv : v.toNat ≤ 511) :
      DecoderMove a d { d with root := v.setWidth 9 }
  | startNoTree (h : d.state = .idle) (ht : d.noTree = true) (ha : a = some (.regWrite 0x0#4 1#32)) :
      DecoderMove a d (d.initRun.raise .noTree d.root)
  | start (h : d.state = .idle) (ht : d.noTree = false) (ha : a = some (.regWrite 0x0#4 1#32)) :
      DecoderMove a d { d.initRun with state := .validate }
  | eos (h : d.state = .validate ∨ d.state = .run) (ha : a = some (.regWrite 0x0#4 2#32)) :
      DecoderMove a d { d with eos := true }
  | clear (h : d.state = .done ∨ d.state = .error) (ha : a = some (.regWrite 0x0#4 3#32)) :
      DecoderMove a d d.acknowledge
  | rst (ha : a = some .rst) : DecoderMove a d (Decoder.atReset d.tm)

/-- The ways one step can change the bitpacker (R7, R170, R180), where `a` is the host's next act, if it has one. -/
inductive PackerMove (a : Option Event) (p : Packer) : Packer → Prop where
  | stay : PackerMove a p p
  | shift (h : p.shiftEnabled = true) :
      PackerMove a p { p.appendBit p.nextCodeBit with clen := p.clen - 1 }
  | transfer (h : p.outEnabled = true) :
      PackerMove a p { p with bytes := p.bytes ++ [p.acc], acc := 0, acclen := 0 }
  | pad (h : p.padEnabled = true) : PackerMove a p (p.appendBit false)
  | finish (h : p.finishEnabled = true) : PackerMove a p { p with state := .done }
  | code (sym : Byte) (h : p.symReady = true) (hl : (p.ctRead sym).len ≠ 0) (ha : a = some (.symPush sym)) :
      PackerMove a p { p with cbuf := (p.ctRead sym).bits, clen := (p.ctRead sym).len }
  | unknown (sym : Byte) (h : p.symReady = true) (hl : (p.ctRead sym).len = 0) (ha : a = some (.symPush sym)) :
      PackerMove a p (p.raise .unknownSymbol sym)
  | load (sym : Byte) (l : CodeLen) (c : CodeField) (h : p.state = .idle) (ha : a = some (.ctWrite sym l c)) :
      PackerMove a p (p.ctStore sym l c)
  | start (h : p.state = .idle) (ha : a = some (.regWrite 0x8#4 1#32)) :
      PackerMove a p { p with
        bytes := [], acc := 0, acclen := 0, cbuf := 0, clen := 0, flush := false,
        errcode := .noError, errinfo := 0, state := .run }
  | flush (h : p.state = .run) (ha : a = some (.regWrite 0x8#4 2#32)) : PackerMove a p { p with flush := true }
  | clear (h : p.state = .done ∨ p.state = .error) (ha : a = some (.regWrite 0x8#4 3#32)) :
      PackerMove a p p.acknowledge
  | rst (ha : a = some .rst) : PackerMove a p (Packer.atReset p.ct)

/-- A command a register write carries, and the write that carries it (R95). -/
theorem decode_command_cases {a : RegAddr} {v : RegWord} {i : Instr} (h : decode (.command a v) = .ok i) :
    (i = .dStart ∧ a = 0x0#4 ∧ v = 1#32) ∨ (i = .dEos ∧ a = 0x0#4 ∧ v = 2#32) ∨
    (i = .dClear ∧ a = 0x0#4 ∧ v = 3#32) ∨ (i = .pStart ∧ a = 0x8#4 ∧ v = 1#32) ∨
    (i = .pFlush ∧ a = 0x8#4 ∧ v = 2#32) ∨ (i = .pClear ∧ a = 0x8#4 ∧ v = 3#32) := by
  simp only [decode, decodeCommand] at h
  split_ifs at h <;> injection h with h <;> subst_vars <;> simp

/-! ### The decoder's own step -/

/-- The instruction fetched at `CUR` runs as one of the decoder's moves and leaves everything else as it is. -/
theorem exec_fetchNode {s : State} (hr : s.dec.emitPending = true ∨ s.dec.walkEnabled = true) :
    ∃ d', (∀ a, DecoderMove a s.dec d') ∧ exec s.dec.fetchNode s = .next { s with dec := d' } := by
  simp only [Decoder.fetchNode, nodeInstr]
  cases ht : nodeTag s.dec.curWord with
  | false =>
    have he : s.dec.emitPending = false := by simp [Decoder.emitPending, Decoder.curTag, ht]
    have hw : s.dec.walkEnabled = true := by simpa [he] using hr
    exact ⟨_, fun _ => .descend hw ht, by simp [exec, execInt, State.mapDec, hw, Decoder.curTag, ht]⟩
  | true =>
    cases he : s.dec.emitPending with
    | true => exact ⟨_, fun _ => .emit he, by simp [exec, execLeaf, State.mapDec, he]⟩
    | false =>
      have hw : s.dec.walkEnabled = true := by simpa [he] using hr
      exact ⟨_, fun _ => .leafBit hw ht, by simp [exec, execLeaf, State.mapDec, he, hw, Decoder.curTag, ht]⟩

/-- The decoder's own step is one of its moves and leaves everything else as it is. -/
theorem decoderStep_move (s : State) :
    ∃ d', (∀ a, DecoderMove a s.dec d') ∧ decoderStep s = .next { s with dec := d' } := by
  unfold decoderStep
  split_ifs with hv he ho hw
  · exact ⟨_, fun _ => .scan hv, rfl⟩
  · exact exec_fetchNode (.inl he)
  · exact ⟨_, fun _ => .stay, rfl⟩
  · exact exec_fetchNode (.inr hw)
  · cases hf : s.dec.endEnabled with
    | true => exact ⟨_, fun _ => .finish hf, rfl⟩
    | false => exact ⟨_, fun _ => .stay, by simp [State.mapDec, Decoder.finish, hf]⟩

/-! ### The bitpacker's own step -/

/-- The bitpacker's own step is one of its moves. -/
theorem Packer.step_move (a : Option Event) (r : Bool) (p : Packer) : PackerMove a p (p.step r) := by
  unfold Packer.step
  split_ifs with ho hr hs hp hf
  · rw [Packer.transfer, if_pos ho]; exact .transfer ho
  · exact .stay
  · rw [Packer.shift, if_pos hs]; exact .shift hs
  · rw [Packer.pad, if_pos hp]; exact .pad hp
  · rw [Packer.finish, if_pos hf]; exact .finish hf
  · exact .stay

/-! ### The whole step -/

/-- What a step has done: each unit has made one of its moves, and at most one of the two has moved unless the host
gave `rst`; `a` is the host's next act. -/
structure Moved (a : Option Event) (s s' : State) : Prop where
  dec : DecoderMove a s.dec s'.dec
  pack : PackerMove a s.pack s'.pack
  one : s'.dec = s.dec ∨ s'.pack = s.pack ∨
    (s'.dec = Decoder.atReset s.dec.tm ∧ s'.pack = Packer.atReset s.pack.ct)

/-- A move of the decoder alone. -/
theorem Moved.byDec {a : Option Event} {s s' : State} (h : DecoderMove a s.dec s'.dec) (hp : s'.pack = s.pack) :
    Moved a s s' :=
  ⟨h, hp ▸ .stay, .inr (.inl hp)⟩

/-- A move of the bitpacker alone. -/
theorem Moved.byPack {a : Option Event} {s s' : State} (h : PackerMove a s.pack s'.pack) (hd : s'.dec = s.dec) :
    Moved a s s' :=
  ⟨hd ▸ .stay, h, .inl hd⟩

/-- A unit's own step always answers a next state. -/
theorem unitsStep_moved (a : Option Event) (s : State) : ∃ s', unitsStep s = .next s' ∧ Moved a s s' := by
  unfold unitsStep
  split_ifs
  · obtain ⟨d', hm, h⟩ := decoderStep_move s
    exact ⟨_, h, .byDec (hm a) rfl⟩
  · exact ⟨_, rfl, .byPack (Packer.step_move _ _ _) rfl⟩

/-- A command written to its register is one move of one unit. -/
theorem exec_command_moved (s : State) {a : RegAddr} {v : RegWord} {i : Instr} (h : decode (.command a v) = .ok i) :
    ∃ s', exec i s = .next s' ∧ Moved (some (.regWrite a v)) s s' := by
  obtain ⟨rfl, rfl, rfl⟩ | ⟨rfl, rfl, rfl⟩ | ⟨rfl, rfl, rfl⟩ | ⟨rfl, rfl, rfl⟩ | ⟨rfl, rfl, rfl⟩ | ⟨rfl, rfl, rfl⟩ :=
    decode_command_cases h
  · refine ⟨_, rfl, .byDec ?_ rfl⟩
    simp only [State.mapDec_dec]
    split_ifs with hi ht
    · exact .startNoTree hi ht rfl
    · exact .start hi (by simpa using ht) rfl
    · exact .stay
  · refine ⟨_, rfl, .byDec ?_ rfl⟩
    simp only [State.mapDec_dec]
    split_ifs with hi
    · exact .eos hi rfl
    · exact .stay
  · refine ⟨_, rfl, .byDec ?_ rfl⟩
    simp only [State.mapDec_dec]
    split_ifs with hi
    · exact .clear hi rfl
    · exact .stay
  · refine ⟨_, rfl, .byPack ?_ rfl⟩
    simp only [State.mapPack_pack]
    split_ifs with hi
    · exact .start hi rfl
    · exact .stay
  · refine ⟨_, rfl, .byPack ?_ rfl⟩
    simp only [State.mapPack_pack]
    split_ifs with hi
    · exact .flush hi rfl
    · exact .stay
  · refine ⟨_, rfl, .byPack ?_ rfl⟩
    simp only [State.mapPack_pack]
    split_ifs with hi
    · exact .clear hi rfl
    · exact .stay

/-- A register write always answers a next state. -/
theorem regWrite_moved (a : RegAddr) (v : RegWord) (s : State) :
    ∃ s', regWrite a v s = .next s' ∧ Moved (some (.regWrite a v)) s s' := by
  unfold regWrite
  cases hd : decode (.command a v) with
  | ok i => exact exec_command_moved s hd
  | error e =>
    simp only
    split_ifs
    · refine ⟨_, rfl, .byDec ?_ rfl⟩
      simp only [State.mapDec_dec, Decoder.writeNnodes]
      split_ifs with hi
      · exact .count v hi.1 hi.2
      · exact .stay
    · refine ⟨_, rfl, .byDec ?_ rfl⟩
      simp only [State.mapDec_dec, Decoder.writeRoot]
      split_ifs with hi
      · exact .rootSet v hi.1 hi.2
      · exact .stay
    · exact ⟨_, rfl, .byDec .stay rfl⟩

/-- A pushed symbol always answers a next state. -/
theorem symPush_moved (sym : Byte) (s : State) :
    ∃ s', symPush sym s = .next s' ∧ Moved (some (.symPush sym)) s s' := by
  unfold symPush
  split_ifs with hr
  · simp only [Packer.fetchEntry, entryInstr]
    split_ifs with hl
    · refine ⟨_, rfl, .byPack ?_ rfl⟩
      simpa [hr] using PackerMove.unknown (a := some (.symPush sym)) sym hr hl rfl
    · refine ⟨_, rfl, .byPack ?_ rfl⟩
      simpa [hr, hl] using PackerMove.code (a := some (.symPush sym)) sym hr hl rfl
  · exact ⟨_, rfl, .byDec .stay rfl⟩

/-- A host transaction always answers a next state. -/
theorem perform_moved (e : Event) (s : State) : ∃ s', perform e s = .next s' ∧ Moved (some e) s s' := by
  cases e with
  | tmWrite i w =>
    refine ⟨_, rfl, .byDec ?_ rfl⟩
    simp only [State.mapDec_dec, Decoder.tmWrite]
    split_ifs with hi
    · exact .load i w hi rfl
    · exact .stay
  | ctWrite y l c =>
    refine ⟨_, rfl, .byPack ?_ rfl⟩
    simp only [State.mapPack_pack, Packer.ctWrite]
    split_ifs with hi
    · exact .load y l c hi rfl
    · exact .stay
  | regWrite a v => exact regWrite_moved a v s
  | regRead a => exact ⟨_, rfl, .byDec .stay rfl⟩
  | inPush b =>
    refine ⟨_, rfl, .byDec ?_ rfl⟩
    simp only [State.mapDec_dec, Decoder.inPush]
    split_ifs with hi
    · exact .push b hi rfl
    · exact .stay
  | symPush y => exact symPush_moved y s
  | rst => exact ⟨_, rfl, .rst rfl, .rst rfl, .inr (.inr ⟨rfl, rfl⟩)⟩
  | setOutReady b => exact ⟨_, rfl, .byDec .stay rfl⟩
  | setByteReady b => exact ⟨_, rfl, .byDec .stay rfl⟩
  | decoderTurn =>
    obtain ⟨d', hm, h⟩ := decoderStep_move s
    exact ⟨_, h, .byDec (hm _) rfl⟩
  | packerTurn => exact ⟨_, rfl, .byPack (Packer.step_move _ _ _) rfl⟩
  | awaitDecoder => exact ⟨_, rfl, .byDec .stay rfl⟩
  | awaitPacker => exact ⟨_, rfl, .byDec .stay rfl⟩

/-- Every step answers a next state, and each unit has made one of its moves. -/
theorem step_moved (s : State) : ∃ s', step s = .next s' ∧ Moved s.host.agenda.head? s s' := by
  unfold step advance
  cases s.host.agenda with
  | nil => exact unitsStep_moved _ s
  | cons e rest =>
    simp only
    split_ifs
    · exact unitsStep_moved _ s
    · obtain ⟨s', h, m⟩ := perform_moved e (s.withAgenda rest)
      exact ⟨s', h, m.dec, m.pack, m.one⟩

/-- What a step that answers `s'` has done. -/
theorem step_cases {s s' : State} (h : step s = .next s') : Moved s.host.agenda.head? s s' := by
  obtain ⟨t, ht, m⟩ := step_moved s
  rw [ht] at h
  injection h with h
  exact h ▸ m

end Sys2Proof.Machine
end

