-- ==== Sys2Proof/Laws/PerInstr.lean ====
section
/-! SUPPORT. Statements about every instruction as syntax, one lemma for each constructor of Instr. -/

namespace Sys2Proof.Laws.DecodeEncode

/-- The item that a well-formed instruction is encoded in decodes to it. -/
def Statement (i : Instr) : Prop := i.wellFormed = true → decode (encode i) = .ok i

theorem int (left right : NodeIdx) (sym : Byte) : Statement (.int left right sym) := by
  intro _; simp [encode, decode, decodeNode]

theorem leaf (left right : NodeIdx) (sym : Byte) : Statement (.leaf left right sym) := by
  intro _; simp [encode, decode, decodeNode]

theorem b0 : Statement .b0 := fun _ => rfl
theorem b1 : Statement .b1 := fun _ => rfl
theorem dStart : Statement .dStart := fun _ => rfl
theorem dEos : Statement .dEos := fun _ => rfl
theorem dClear : Statement .dClear := fun _ => rfl
theorem pStart : Statement .pStart := fun _ => rfl
theorem pFlush : Statement .pFlush := fun _ => rfl
theorem pClear : Statement .pClear := fun _ => rfl

theorem code (sym : Byte) (len : CodeLen) (bits : CodeField) : Statement (.code sym len bits) := by
  intro h
  simp only [Instr.wellFormed, bne_iff_ne, ne_eq] at h
  simp [encode, decode, entryInstr, h]

theorem absent (sym : Byte) (bits : CodeField) : Statement (.absent sym bits) := fun _ => rfl

end Sys2Proof.Laws.DecodeEncode
end

