-- ==== Sys2Proof/Laws/Runs.lean ====
section
/-! SUPPORT. Small facts that whole runs are put together from: runs of the machine joined end to end, what the decoder fetches, and the bit
strings of codes and of whole bytes. -/

namespace Sys2Proof.Machine

/-! ### Runs -/

/-- A step and then a run. -/
theorem core_run_succ {s s₁ s₂ : State} {k : Nat} (h : step s = .next s₁) (hr : core.run k s₁ = .next s₂) :
    core.run (k + 1) s = .next s₂ := by
  have h' : core.step s = .next s₁ := h
  simp only [Host.Core.run]
  rw [h']
  exact hr

/-- Two runs, one after the other. -/
theorem core_run_add {s s₁ s₂ : State} {j k : Nat} (h : core.run j s = .next s₁) (hr : core.run k s₁ = .next s₂) :
    core.run (j + k) s = .next s₂ := by
  induction j generalizing s with
  | zero => cases h; rwa [Nat.zero_add]
  | succ j ih =>
    obtain ⟨t, ht, -⟩ := step_moved s
    have ht' : core.step s = .next t := ht
    simp only [Host.Core.run] at h
    rw [ht'] at h
    rw [Nat.add_right_comm]
    exact core_run_succ ht (ih h)

/-! ### What the decoder fetches -/

/-- At a Leaf the decoder fetches `LEAF`. -/
theorem Decoder.fetchNode_of_leaf {d : Decoder} (h : d.curTag = true) :
    d.fetchNode = .leaf (nodeLeft d.curWord) (nodeRight d.curWord) (nodeSym d.curWord) :=
  if_pos h

/-- At an Internal node the decoder fetches `INT`. -/
theorem Decoder.fetchNode_of_internal {d : Decoder} (h : d.curTag = false) :
    d.fetchNode = .int (nodeLeft d.curWord) (nodeRight d.curWord) (nodeSym d.curWord) :=
  if_neg (Bool.eq_false_iff.mp h)

/-- The children of a legal Internal node are nodes of the tree (R92). -/
theorem nodeOk_children {w : NodeWord} {n : NodeCount} (h : nodeOk w n = true) (ht : nodeTag w = false) :
    (nodeLeft w).toNat < n.toNat ∧ (nodeRight w).toNat < n.toNat := by
  simp only [nodeOk, ht, Bool.not_false, Bool.true_and, Bool.false_and, Bool.or_false, Bool.and_eq_true,
    decide_eq_true_eq] at h
  exact ⟨h.2.1.2, h.2.2⟩

/-! ### Bit strings -/

/-- A code that is not used up is its next bit and then the rest (R34, R174). -/
theorem codeBits_eq_cons {n : CodeLen} (c : CodeField) (h : n ≠ 0) :
    codeBits n c = c.getLsbD (n.toNat - 1) :: codeBits (n - 1) c := by
  have h0 : n.toNat ≠ 0 := fun h' => h (BitVec.eq_of_toNat_eq h')
  have h1 : (n - 1).toNat = n.toNat - 1 := by simp; omega
  obtain ⟨m, hm⟩ : ∃ m, n.toNat = m + 1 := ⟨n.toNat - 1, by omega⟩
  simp only [codeBits, h1, hm, Nat.add_sub_cancel, List.range_succ_eq_map, List.map_cons, List.map_map, codeBit]
  refine congrArg _ (List.map_congr_left fun j hj => ?_)
  have hj : j < m := List.mem_range.mp hj
  simp only [Function.comp, codeBit, h1, hm]
  congr 1
  omega

/-- Eight bits packed into a byte and read back as stream bits (R65, R97). -/
theorem streamBits_byteOf : ∀ b7 b6 b5 b4 b3 b2 b1 b0 : Bool,
    streamBits (Reference.byteOf [b7, b6, b5, b4, b3, b2, b1, b0]) = [b7, b6, b5, b4, b3, b2, b1, b0] := by
  decide

/-- The stream bits of a byte packed into a byte. -/
theorem byteOf_streamBits : ∀ b : Byte, Reference.byteOf (streamBits b) = b := by decide

/-- The bits of a decoder that are not consumed yet: the next one, and those left after it (R28). -/
theorem pendingBits_eq_cons {d : Decoder} (h0 : d.bitcnt ≠ 0) (h8 : d.bitcnt.toNat ≤ 8) :
    Reference.pendingBits d = d.nextBit :: (streamBits (shiftIn d.shreg false)).take (d.bitcnt - 1).toNat := by
  have h0' : d.bitcnt.toNat ≠ 0 := fun h => h0 (BitVec.eq_of_toNat_eq h)
  have hb : (d.bitcnt - 1).toNat = d.bitcnt.toNat - 1 := by simp; omega
  rw [hb, Reference.pendingBits, show d.bitcnt.toNat = (d.bitcnt.toNat - 1) + 1 by omega,
    streamBits_take_succ _ (by omega)]
  rfl

end Sys2Proof.Machine
end

