-- ==== Sys2Proof/Laws/Trees.lean ====
section
/-! SUPPORT. Small lemmas of the host's trees and tables: the indices of a tree in an arena, its leaves, paths and codes, and the
entry written for a code. -/

namespace Sys2Proof.Reference

open Sys2Proof Sys2Proof.Machine

/-! ### Indices -/

@[simp] theorem root_mem_indices (T : Arena) (t : PrefixTree) (i : NodeIdx) : i ∈ indices T t i := by
  cases t <;> simp [indices]

/-- A tree with `L` leaves has `2L - 1` nodes (R6). -/
theorem length_indices (T : Arena) : ∀ (t : PrefixTree) (i : NodeIdx),
    (indices T t i).length + 1 = 2 * t.symbols.length
  | .leaf _, _ => rfl
  | .node l r, i => by
    have hl := length_indices T l (nodeLeft (T i))
    have hr := length_indices T r (nodeRight (T i))
    simp only [indices, PrefixTree.symbols, List.length_cons, List.length_append]
    omega

/-- The children of an Internal node of the tree are nodes of the tree. -/
theorem children_mem_indices {T : Arena} : ∀ {t : PrefixTree} {i k : NodeIdx}, Represents T t i → k ∈ indices T t i →
    nodeTag (T k) = false → nodeLeft (T k) ∈ indices T t i ∧ nodeRight (T k) ∈ indices T t i
  | .leaf _, i, k, h, hk, ht => by
    obtain rfl : k = i := by simpa [indices] using hk
    simp [Represents, ht] at h
  | .node l r, i, k, h, hk, ht => by
    simp only [indices, List.mem_cons, List.mem_append] at hk ⊢
    rcases hk with rfl | hk | hk
    · exact ⟨.inr (.inl (root_mem_indices T l _)), .inr (.inr (root_mem_indices T r _))⟩
    · have hc := children_mem_indices h.2.1 hk ht
      exact ⟨.inr (.inl hc.1), .inr (.inl hc.2)⟩
    · have hc := children_mem_indices h.2.2 hk ht
      exact ⟨.inr (.inr hc.1), .inr (.inr hc.2)⟩

/-! ### Leaves, paths and codes -/

theorem PrefixTree.symbols_ne_nil : ∀ t : PrefixTree, t.symbols ≠ []
  | .leaf _ => by simp [PrefixTree.symbols]
  | .node l _ => by simp [PrefixTree.symbols, l.symbols_ne_nil]

/-- There is one path for each leaf, in the order of the leaves. -/
theorem PrefixTree.paths_map_fst : ∀ t : PrefixTree, t.paths.map Prod.fst = t.symbols
  | .leaf _ => rfl
  | .node l r => by
    simp [PrefixTree.paths, PrefixTree.symbols, Function.comp_def, ← l.paths_map_fst, ← r.paths_map_fst]

/-- There is one code for each leaf, in the order of the leaves. -/
theorem PrefixTree.codes_map_fst (t : PrefixTree) : t.codes.map Prod.fst = t.symbols := by
  cases t with
  | leaf => rfl
  | node l r => exact (PrefixTree.node l r).paths_map_fst

/-- No path is as long as the tree has leaves (R6). -/
theorem PrefixTree.length_lt_of_mem_paths : ∀ {t : PrefixTree} {p : Byte × List Bool}, p ∈ t.paths →
    p.2.length + 1 ≤ t.symbols.length
  | .leaf _, p, h => by
    obtain rfl : p = (_, []) := by simpa [PrefixTree.paths] using h
    simp [PrefixTree.symbols]
  | .node l r, p, h => by
    have hl := List.length_pos_iff.2 l.symbols_ne_nil
    have hr := List.length_pos_iff.2 r.symbols_ne_nil
    simp only [PrefixTree.paths, List.mem_append, List.mem_map] at h
    simp only [PrefixTree.symbols, List.length_append]
    rcases h with ⟨q, hq, rfl⟩ | ⟨q, hq, rfl⟩
    · have := PrefixTree.length_lt_of_mem_paths hq
      simp only [List.length_cons]
      omega
    · have := PrefixTree.length_lt_of_mem_paths hq
      simp only [List.length_cons]
      omega

/-! ### The entry of a code (R207) -/

/-- The bits of a code's number are the code's bits, its last bit lowest, above those of `v`. -/
theorem testBit_codeNumber_from (c : List Bool) (v k : Nat) :
    (c.foldl (fun v b => 2 * v + b.toNat) v).testBit k =
      if k < c.length then c.getD (c.length - 1 - k) false else v.testBit (k - c.length) := by
  induction c generalizing v with
  | nil => simp
  | cons b c ih =>
    rw [List.foldl_cons, ih]
    rcases Nat.lt_trichotomy k c.length with h | rfl | h
    · rw [if_pos h, if_pos (by simp only [List.length_cons]; omega),
        show (b :: c).length - 1 - k = (c.length - 1 - k) + 1 by simp only [List.length_cons]; omega,
        List.getD_cons_succ]
    · cases b <;> simp [Nat.testBit_zero]
    · obtain ⟨j, rfl⟩ : ∃ j, k = c.length + (j + 1) := ⟨k - c.length - 1, by omega⟩
      have hv : (2 * v + b.toNat) / 2 = v := by (cases b <;> simp); omega
      rw [if_neg (by omega), if_neg (by simp), show c.length + (j + 1) - c.length = j + 1 by omega,
        show c.length + (j + 1) - (b :: c).length = j by simp only [List.length_cons]; omega, Nat.testBit_succ, hv]

/-- The entry written for a code holds that code. -/
theorem codeBits_codeEntry {c : List Bool} (h : c.length ≤ 255) :
    codeBits (codeEntry c).len (codeEntry c).bits = c := by
  have hl : (BitVec.ofNat 8 c.length).toNat = c.length := by simp; omega
  apply List.ext_getElem
  · simp [codeBits, codeEntry, hl]
  · intro i h1 h2
    simp only [codeBits, codeEntry, hl, List.getElem_map, List.getElem_range, codeBit, BitVec.getLsbD_ofNat, codeNumber,
      testBit_codeNumber_from]
    rw [if_pos (by omega), show c.length - 1 - (c.length - 1 - i) = i by omega]
    simp [h2]
    omega

end Sys2Proof.Reference
end

