-- ==== Sys2Proof/Tests/Slice0.lean ====
section
/-! SUPPORT. Tests. Expected values come from the examples of the rules of 40_decoder_walk.md, 41_decoder_control.md and 42_bitpacker.md
and from 95_test_vectors.md, named at each test. After them, for every obligation with hypotheses, a concrete state that
meets them (`witness_…`). -/

namespace Sys2Proof.Tests

open Sys2Proof Sys2Proof.Machine Sys2Proof.Reference

/-! ### Small states -/

/-- The tree `T1` of 95_test_vectors.md: `0: INT 1, 2`, `1: LEAF 'a'`, `2: LEAF 'b'`. -/
def treeAB : Memory NodeWord := [(0, 0x60020200#32), (1, 0x80000061#32), (2, 0x80000062#32)]

/-- A decoder with `T1` loaded, in the state `st`. -/
def decIn (st : DState) : Decoder := { Decoder.atReset treeAB with nnodes := 3, state := st }

/-- A walk in `T1`. -/
def walkAt (cur : NodeIdx) (mid : Bool) (shreg : Byte) (bitcnt : BitVec 4) : State :=
  { State.reset with dec := { decIn .run with cur := cur, mid := mid, shreg := shreg, bitcnt := bitcnt } }

/-- A walk in the single-leaf tree `T4` of 95_test_vectors.md: `0: LEAF 'a'`. -/
def walkAtLone (mid : Bool) (shreg : Byte) (bitcnt : BitVec 4) : State :=
  { State.reset with dec :=
    { Decoder.atReset [(0, 0x80000061#32)] with
      nnodes := 1, state := .run, mid := mid, shreg := shreg, bitcnt := bitcnt } }

/-- The decoder with `T1`, in the state `st`. -/
def inDec (st : DState) : State := { State.reset with dec := decIn st }

/-- The table `K1` of 95_test_vectors.md for three symbols: `a` is "0", `b` is "1", `z` is absent. -/
def tableAB : Memory CodeEntry := [(0x61, ⟨1#8, 0#255⟩), (0x62, ⟨1#8, 1#255⟩), (0x7A, ⟨0#8, 0#255⟩)]

/-- A bitpacker in RUN with `K1`. -/
def packAt (clen : CodeLen) (cbuf : CodeField) (acc : Byte) (acclen : BitVec 4) (flush : Bool) : State :=
  { State.reset with pack :=
    { Packer.atReset tableAB with
      state := .run, clen := clen, cbuf := cbuf, acc := acc, acclen := acclen, flush := flush } }

/-- The bitpacker with `K1`, in the state `st`. -/
def inPack (st : PState) : State := { State.reset with pack := { Packer.atReset tableAB with state := st } }

/-- The next state of an outcome, if it is one. -/
def after? : Host.Outcome State Fault Refusal → Option State
  | .next s => some s
  | .fault _ => none
  | .refused _ => none

/-- The decoder of the next state. -/
def dec? (o : Host.Outcome State Fault Refusal) : Option Decoder := (after? o).map State.dec

/-- The bitpacker of the next state. -/
def pack? (o : Host.Outcome State Fault Refusal) : Option Packer := (after? o).map State.pack

/-! ### WellFormed: the one check -/

/-- R93: a `CODE` of length 0 is no instruction; its entry is `ABSENT`. -/
theorem test_code_of_length_zero_is_ill_formed :
    (Instr.code 0x61 0 0).wellFormed = false ∧ decode (encode (.code 0x61 0 0)) = .ok (.absent 0x61 0) := by decide

/-- R93: the shortest and the longest code are well-formed. -/
theorem test_code_lengths_1_and_255_are_well_formed :
    (Instr.code 0x61 1 0).wellFormed = true ∧ (Instr.code 0x61 255 0).wellFormed = true := by decide

/-! ### Decoding: one word for every constructor, its bits written out from 30_encoding.md -/

/-- R91, R92: 011000, LEFT 000000001, RIGHT 111111111, SYM 00000101. -/
theorem test_decode_int :
    decode (.node 0b01100000000000111111111100000101#32) = .ok (.int 1 511 5) := by decide

/-- R91, R92: 100000, LEFT 000000010, RIGHT 000000011, SYM 01100001. -/
theorem test_decode_leaf :
    decode (.node 0b10000000000001000000001101100001#32) = .ok (.leaf 2 3 0x61) := by decide

/-- R92, R99 and 95_test_vectors.md V3 rows 1, 2, 3, 5: one child missing, a Leaf with a child, a reserved bit, no child. -/
theorem test_decode_illegal_nodes :
    decode (.node 0x40020200#32) = .error .illegalNode ∧ decode (.node 0xC0040061#32) = .error .illegalNode ∧
    decode (.node 0x84000062#32) = .error .illegalNode ∧ decode (.node 0#32) = .error .illegalNode := by decide

/-- R96. -/
theorem test_decode_b0 : decode (.bit false) = .ok .b0 := by decide

/-- R96. -/
theorem test_decode_b1 : decode (.bit true) = .ok .b1 := by decide

/-- R95: the register 0x0. -/
theorem test_decode_decoder_commands :
    decode (.command 0b0000#4 0b00000000000000000000000000000001#32) = .ok .dStart ∧
    decode (.command 0b0000#4 0b00000000000000000000000000000010#32) = .ok .dEos ∧
    decode (.command 0b0000#4 0b00000000000000000000000000000011#32) = .ok .dClear := by decide

/-- R95: the register 0x8. -/
theorem test_decode_bitpacker_commands :
    decode (.command 0b1000#4 0b00000000000000000000000000000001#32) = .ok .pStart ∧
    decode (.command 0b1000#4 0b00000000000000000000000000000010#32) = .ok .pFlush ∧
    decode (.command 0b1000#4 0b00000000000000000000000000000011#32) = .ok .pClear := by decide

/-- R95, R99: reserved values, the whole word compared; R41: no other register takes commands. -/
theorem test_decode_reserved_commands :
    decode (.command 0#4 0#32) = .error .reservedCommand ∧ decode (.command 0#4 4#32) = .error .reservedCommand ∧
    decode (.command 8#4 0x80000001#32) = .error .reservedCommand ∧
    decode (.command 2#4 1#32) = .error .notACommandRegister := by decide

/-- R93, R97 item 3: "0111" is LEN 4, CODE 7. -/
theorem test_decode_code : decode (.entry 0x61#8 0b00000100#8 0b0111#255) = .ok (.code 0x61 4 7) := by decide

/-- R93: LEN 0, whatever CODE is. -/
theorem test_decode_absent : decode (.entry 0x61#8 0b00000000#8 0x1234#255) = .ok (.absent 0x61 0x1234) := by decide

/-- R97 item 3, item 5: the first bit of a code is its highest, the first stream bit of a byte is bit 7. -/
theorem test_bit_order :
    codeBits 4#8 0b0111#255 = [false, true, true, true] ∧
    streamBits 0x70#8 = [false, true, true, true, false, false, false, false] := by decide

/-- The opcode table's match values, read in its own numbering (log 7). -/
theorem test_table_words :
    decodeTableWord 32 0x60000000 = some (.int 0 0 0) ∧ decodeTableWord 32 0x80000000 = some (.leaf 0 0 0) ∧
    decodeTableWord 8 0 = some .b0 ∧ decodeTableWord 8 1 = some .b1 ∧
    decodeTableWord 32 1 = some .dStart ∧ decodeTableWord 32 2 = some .dEos ∧ decodeTableWord 32 3 = some .dClear ∧
    decodeTableWord 40 0x800000001 = some .pStart ∧ decodeTableWord 40 0x800000002 = some .pFlush ∧
    decodeTableWord 40 0x800000003 = some .pClear ∧
    decodeTableWord 264 0x704 = some (.code 0 4 7) ∧ decodeTableWord 264 0 = some (.absent 0 0) := by decide

/-! ### One step of each instruction -/

/-- R121's example. -/
theorem test_int_goes_left :
    (dec? (exec (.int 1 2 0) (walkAt 0 false 0x70 8))).map (fun d => (d.cur, d.mid, d.shreg, d.bitcnt)) =
      some (1, true, 0xE0, 7) := by decide

/-- R123's example. -/
theorem test_int_goes_right :
    (dec? (exec (.int 1 2 0) (walkAt 0 false 0xE0 7))).map (fun d => (d.cur, d.mid, d.shreg, d.bitcnt)) =
      some (2, true, 0xC0, 6) := by decide

/-- R124's example. -/
theorem test_leaf_emits :
    (dec? (exec (.leaf 0 0 0x61) (walkAt 1 true 0xE0 7))).map (fun d => (d.out, d.cur, d.mid, d.bitcnt)) =
      some ([0x61], 0, false, 7) := by decide

/-- R125, and 95_test_vectors.md P3 run B: the bit 1 at a lone leaf. -/
theorem test_leaf_mismatch :
    (dec? (exec (.leaf 0 0 0x61) (walkAtLone false 0x80 4))).map
      (fun d => (d.state, d.errcode, d.errinfo, d.shreg, d.bitcnt)) =
      some (.error, .treeMismatch, 0, 0x80, 4) := by decide

/-- R122's example. -/
theorem test_b0_goes_left :
    (dec? (exec .b0 (walkAt 0 false 0x70 8))).map (fun d => (d.cur, d.mid, d.shreg, d.bitcnt)) =
      some (1, true, 0xE0, 7) := by decide

/-- R122: `B0` is the consumption of a bit 0; where the next bit is 1 it is not enabled. -/
theorem test_b0_not_enabled : dec? (exec .b0 (walkAt 0 false 0x80 8)) = some (walkAt 0 false 0x80 8).dec := by decide

/-- R125's example: the code of the one symbol. -/
theorem test_b0_at_a_lone_leaf :
    (dec? (exec .b0 (walkAtLone false 0 8))).map (fun d => (d.cur, d.mid, d.bitcnt)) = some (0, true, 7) := by decide

/-- R123's example. -/
theorem test_b1_goes_right :
    (dec? (exec .b1 (walkAt 0 false 0xE0 7))).map (fun d => (d.cur, d.mid, d.shreg, d.bitcnt)) =
      some (2, true, 0xC0, 6) := by decide

/-- 95_test_vectors.md V3 row 10: the root is node 1 of `T1`, after its first `a`. -/
theorem test_b1_mismatch :
    (dec? (exec .b1 (walkAt 1 false 0xE0 7))).map (fun d => (d.state, d.errcode.bits, d.errinfo, d.shreg, d.bitcnt)) =
      some (.error, 5, 1, 0xE0, 7) := by decide

/-- R143's example. -/
theorem test_dStart_begins_the_scan :
    (dec? (exec .dStart (inDec .idle))).map (fun d => (d.state, d.vptr, d.cur, d.out)) =
      some (.validate, 0, 0, []) := by decide

/-- 95_test_vectors.md V3 row 9: the root 3 of 3 nodes. -/
theorem test_dStart_without_a_root :
    (dec? (exec .dStart { State.reset with dec := { decIn .idle with root := 3 } })).map
      (fun d => (d.state, d.errcode.bits, d.errinfo)) = some (.error, 4, 3) := by decide

/-- 95_test_vectors.md V3: VALIDATE, `REG_WRITE(0x0, 2)`. -/
theorem test_dEos_in_validate : (dec? (exec .dEos (inDec .validate))).map (·.eos) = some true := by decide

/-- 95_test_vectors.md V3: IDLE, `REG_WRITE(0x0, 2)`. -/
theorem test_dEos_in_idle : dec? (exec .dEos (inDec .idle)) = some (decIn .idle) := by decide

/-- R148's example. -/
theorem test_dClear_in_error :
    (dec? (exec .dClear { State.reset with dec :=
      { decIn .error with errcode := .streamCorruption, errinfo := 1 } })).map
      (fun d => (d.state, d.errcode, d.errinfo)) = some (.idle, .noError, 0) := by decide

/-- 95_test_vectors.md V3: RUN, `D_CLEAR`. -/
theorem test_dClear_in_run : dec? (exec .dClear (inDec .run)) = some (decIn .run) := by decide

/-- R172's example. -/
theorem test_pStart :
    (pack? (exec .pStart (inPack .idle))).map (fun p => (p.state, p.symReady)) = some (.run, true) := by decide

/-- R176's example. -/
theorem test_pFlush :
    (pack? (exec .pFlush (packAt 0 0 7 4 false))).map (fun p => (p.flush, p.padEnabled, p.symReady)) =
      some (true, true, false) := by decide

/-- 95_test_vectors.md V4: IDLE, `P_FLUSH`. -/
theorem test_pFlush_in_idle : (pack? (exec .pFlush (inPack .idle))).map (·.flush) = some false := by decide

/-- R179's example. -/
theorem test_pClear :
    (pack? (exec .pClear { State.reset with pack :=
      { Packer.atReset tableAB with state := .error, errcode := .unknownSymbol, errinfo := 0x7A } })).map
      (fun p => (p.state, p.errcode, p.errinfo)) = some (.idle, .noError, 0) := by decide

/-- 95_test_vectors.md V4: RUN, `P_CLEAR`. -/
theorem test_pClear_in_run : (pack? (exec .pClear (packAt 0 0 7 4 false))).map (·.state) = some .run := by decide

/-- R173's example. -/
theorem test_code :
    (pack? (exec (.code 0x62 1 1) (packAt 0 0 0 0 false))).map (fun p => (p.cbuf, p.clen, p.acclen)) =
      some (1, 1, 0) := by decide

/-- 95_test_vectors.md V4: RUN, CLEN 2, a symbol is not accepted. -/
theorem test_code_not_accepted :
    (pack? (exec (.code 0x62 1 1) (packAt 2 3 0 0 false))).map (fun p => (p.cbuf, p.clen)) = some (3, 2) := by decide

/-- R184's example. -/
theorem test_absent :
    (pack? (exec (.absent 0x7A 0) (packAt 0 0 1 1 false))).map
      (fun p => (p.state, p.errcode.bits, p.errinfo, p.acc, p.acclen)) = some (.error, 3, 0x7A, 1, 1) := by decide

/-- 95_test_vectors.md V4: a full byte is still there, the symbol is not accepted. -/
theorem test_absent_not_accepted :
    (pack? (exec (.absent 0x7A 0) (packAt 0 0 0x79 8 false))).map (·.state) = some .run := by decide

/-! ### One step of what has no encoding -/

/-- 95_test_vectors.md P4: `D_VSTEP` at the malformed entry 1 of four. -/
theorem test_scan_finds_the_malformed_entry :
    (dec? (decoderStep { State.reset with dec :=
      { Decoder.atReset [(0, 0x60020200#32), (1, 0x40040300#32)] with nnodes := 4, state := .validate, vptr := 1 } })).map
      (fun d => (d.state, d.errcode.bits, d.errinfo)) = some (.error, 1, 1) := by decide

/-- R144: the last entry of a full memory; the comparison is on 10 bits. -/
theorem test_scan_ends_at_512 :
    (dec? (decoderStep { State.reset with dec :=
      { Decoder.atReset [(511, 0x80000061#32)] with nnodes := 512, state := .validate, vptr := 511 } })).map (·.state) =
      some .run := by decide

/-- R127's example. -/
theorem test_end_inside_a_code :
    (dec? (decoderStep { State.reset with dec := { Decoder.atReset [(1, 0x60040300#32)] with
      state := .run, nnodes := 5, cur := 1, mid := true, eos := true } })).map
      (fun d => (d.state, d.errcode.bits, d.errinfo)) = some (.error, 2, 1) := by decide

/-- R174's example. -/
theorem test_shift :
    (pack? (packerStep (packAt 1 1 0b00000011 3 false))).map (fun p => (p.acc, p.acclen, p.clen)) =
      some (0b00000111, 4, 0) := by decide

/-- R175's example. -/
theorem test_transfer :
    (pack? (packerStep (packAt 0 0 0x70 8 false))).map (fun p => (p.bytes, p.acc, p.acclen)) = some ([0x70], 0, 0) := by
  decide

/-- R177's example: the first of its four steps. -/
theorem test_pad :
    (pack? (packerStep (packAt 0 0 0b00000111 4 true))).map (fun p => (p.acc, p.acclen)) = some (0b00001110, 5) := by
  decide

/-- R150's example, and 95_test_vectors.md V2 row 12 and V4 row 12. -/
theorem test_status_registers :
    (walkAt 2 true 0 5).regValue 0x1#4 = 0x00025012#32 ∧
    ({ State.reset with dec := { decIn .error with eos := true, errcode := .treeMismatch, bitcnt := 4 } } : State).regValue
      0x1#4 = 0x0000450C#32 ∧
    ({ State.reset with pack := { Packer.atReset tableAB with
      state := .error, errcode := .unknownSymbol, errinfo := 0x7A, acc := 1, acclen := 1 } } : State).regValue
      0x9#4 = 0x01001304#32 := by decide

/-- 95_test_vectors.md V3: `REG_WRITE(0x2, 513)` and `REG_WRITE(0x2, 512)` in IDLE. -/
theorem test_count_writes :
    (dec? (perform (.regWrite 0x2#4 513#32) (inDec .idle))).map (·.nnodes) = some 3 ∧
    (dec? (perform (.regWrite 0x2#4 512#32) (inDec .idle))).map (·.nnodes) = some 512 := by decide

/-! ### The first instruction after reset (log 13) -/

theorem test_first_node_after_reset :
    (dec? (step (State.reset.withFetchWord 32 0x60020200))).map (fun d => (d.cur, d.mid)) = some (1, true) ∧
    (dec? (step (State.reset.withFetchWord 32 0x80000061))).map (fun d => (d.out, d.mid)) = some ([0x61], false) := by
  decide

theorem test_first_bit_after_reset :
    (dec? (step (State.reset.withFetchWord 8 0))).map (fun d => (d.mid, d.bitcnt)) = some (true, 0) ∧
    (dec? (step (State.reset.withFetchWord 8 1))).map (fun d => (d.mid, d.bitcnt)) = some (true, 0) := by decide

theorem test_first_command_after_reset :
    (dec? (step (State.reset.withFetchWord 32 1))).map (·.errcode) = some .noTree ∧
    (after? (step (State.reset.withFetchWord 32 2))) = some State.reset ∧
    (after? (step (State.reset.withFetchWord 32 3))) = some State.reset ∧
    (pack? (step (State.reset.withFetchWord 40 0x800000001))).map (·.state) = some .run := by decide

theorem test_first_entry_after_reset :
    (pack? (step (State.reset.withFetchWord 264 0x704))).map (fun p => (p.clen, p.cbuf)) = some (4, 7) ∧
    (pack? (step (State.reset.withFetchWord 264 0))).map (fun p => (p.state, p.errinfo)) = some (.error, 0) := by decide

/-! ### Witnesses: the hypotheses of every obligation that has some, met by a concrete state -/

/-- The boundary lengths of a code, and the other constructors' largest fields. -/
theorem witness_TableWordReadsBack :
    (Instr.code 0xFF 255 (BitVec.allOnes 255)).wellFormed = true ∧ (Instr.int 511 511 255).wellFormed = true := by decide

/-- Both sides of the equivalence at the edge of the tree: child 511 in a tree of 512 and of 511 nodes, a Leaf in any. -/
theorem witness_LegalNodeWordsAreTheDecodableOnes :
    nodeOk 0x63FFFF00#32 512 = true ∧ nodeOk 0x63FFFF00#32 511 = false ∧ nodeOk 0x80000061#32 0 = true ∧
    nodeOk 0x40020200#32 512 = false := by decide

/-- For both values of the next bit. -/
theorem witness_IntGoesToTheChildOfTheNextBit :
    let s := walkAt 0 false 0x70 8
    let t := walkAt 0 false 0x80 1
    (.node (s.dec.tmRead s.dec.cur) = encode (.int 1 2 0) ∧ s.dec.state = .run ∧ s.dec.bitcnt ≠ 0 ∧
      s.dec.shreg.getLsbD 7 = false) ∧
    (.node (t.dec.tmRead t.dec.cur) = encode (.int 1 2 0) ∧ t.dec.state = .run ∧ t.dec.bitcnt ≠ 0 ∧
      t.dec.shreg.getLsbD 7 = true) := by decide

/-- With the output drained and not drained. -/
theorem witness_LeafReachedIsEmitted :
    let s := walkAt 1 true 0 0
    let t := { s with host := { s.host with outReady := false } }
    (.node (s.dec.tmRead s.dec.cur) = encode (.leaf 0 0 0x61) ∧ s.dec.state = .run ∧ s.dec.mid = true ∧
      s.host.outReady = true) ∧
    (.node (t.dec.tmRead t.dec.cur) = encode (.leaf 0 0 0x61) ∧ t.dec.state = .run ∧ t.dec.mid = true ∧
      t.host.outReady = false) := by decide

/-- For both values of the next bit, with one bit left. -/
theorem witness_LeafAtTheRootTakesOneBit :
    let s := walkAtLone false 0x7F 1
    let t := walkAtLone false 0x80 1
    (.node (s.dec.tmRead s.dec.cur) = encode (.leaf 0 0 0x61) ∧ s.dec.state = .run ∧ s.dec.mid = false ∧
      s.dec.bitcnt ≠ 0 ∧ s.dec.shreg.getLsbD 7 = false) ∧
    (.node (t.dec.tmRead t.dec.cur) = encode (.leaf 0 0 0x61) ∧ t.dec.state = .run ∧ t.dec.mid = false ∧
      t.dec.bitcnt ≠ 0 ∧ t.dec.shreg.getLsbD 7 = true) := by decide

/-- At an Internal node and at a lone Leaf, the next bit 0. -/
theorem witness_ZeroBitSelectsTheLeftChild :
    let s := walkAt 0 false 0x70 8
    let t := walkAtLone false 0x00 8
    (s.dec.state = .run ∧ s.dec.emitPending = false ∧ s.dec.bitcnt ≠ 0 ∧
      nodeTag (s.dec.tmRead s.dec.cur) = false ∧ s.dec.shreg.getLsbD 7 = false) ∧
    (t.dec.state = .run ∧ t.dec.emitPending = false ∧ t.dec.bitcnt ≠ 0 ∧
      nodeTag (t.dec.tmRead t.dec.cur) = true ∧ t.dec.shreg.getLsbD 7 = false) := by decide

/-- At an Internal node and at a lone Leaf, the next bit 1. -/
theorem witness_OneBitSelectsTheRightChild :
    let s := walkAt 0 false 0xE0 7
    let t := walkAtLone false 0x80 1
    (s.dec.state = .run ∧ s.dec.emitPending = false ∧ s.dec.bitcnt ≠ 0 ∧
      nodeTag (s.dec.tmRead s.dec.cur) = false ∧ s.dec.shreg.getLsbD 7 = true) ∧
    (t.dec.state = .run ∧ t.dec.emitPending = false ∧ t.dec.bitcnt ≠ 0 ∧
      nodeTag (t.dec.tmRead t.dec.cur) = true ∧ t.dec.shreg.getLsbD 7 = true) := by decide

/-- One decoder in each of the four situations, and one outside RUN. -/
theorem witness_DecoderSituationsExcludeEachOther :
    let emit := (walkAt 1 true 0 0).dec
    let walk := (walkAt 0 true 0 1).dec
    let ended := { (walkAt 0 false 0 0).dec with eos := true }
    let waiting := (walkAt 0 false 0 0).dec
    (emit.state = .run ∧ emit.mid = true ∧ nodeTag (emit.tmRead emit.cur) = true) ∧
    (walk.state = .run ∧ ¬(walk.mid = true ∧ nodeTag (walk.tmRead walk.cur) = true) ∧ walk.bitcnt ≠ 0) ∧
    (ended.state = .run ∧ ¬(ended.mid = true ∧ nodeTag (ended.tmRead ended.cur) = true) ∧ ended.bitcnt = 0 ∧
      ended.eos = true) ∧
    (waiting.state = .run ∧ ¬(waiting.mid = true ∧ nodeTag (waiting.tmRead waiting.cur) = true) ∧
      waiting.bitcnt = 0 ∧ waiting.eos = false) ∧
    (decIn .error).state ≠ .run := by decide

/-- At the root and inside a code. -/
theorem witness_ExhaustedStreamEndsTheRun :
    let d := { (walkAt 0 false 0 0).dec with eos := true }
    let e := { (walkAt 0 true 0 0).dec with eos := true }
    (d.state = .run ∧ d.emitPending = false ∧ d.bitcnt = 0 ∧ d.eos = true ∧ d.mid = false) ∧
    (e.state = .run ∧ e.emitPending = false ∧ e.bitcnt = 0 ∧ e.eos = true ∧ e.mid = true) := by decide

/-- A byte offered to a decoder that is ready, and to one that is not. -/
theorem witness_BytesAreAcceptedWhenReady :
    let s := (walkAt 0 false 0 0).withAgenda [.inPush 0x70]
    let t := (walkAt 0 false 0 1).withAgenda [.inPush 0x70]
    (s.host.agenda = .inPush 0x70 :: [] ∧ s.dec.state = .run ∧ s.dec.emitPending = false ∧ s.dec.bitcnt = 0 ∧
      s.dec.eos = false) ∧
    (t.host.agenda = .inPush 0x70 :: [] ∧
      ¬(t.dec.state = .run ∧ t.dec.emitPending = false ∧ t.dec.bitcnt = 0 ∧ t.dec.eos = false)) := by decide

/-- At the root and inside a code. -/
theorem witness_DecoderWaitsForInput :
    let d := (walkAt 0 false 0 0).dec
    let e := (walkAt 0 true 0 0).dec
    (d.state = .run ∧ d.emitPending = false ∧ d.bitcnt = 0 ∧ d.eos = false) ∧
    (e.state = .run ∧ e.emitPending = false ∧ e.bitcnt = 0 ∧ e.eos = false) ∧
    after? (step (walkAt 0 true 0 0)) = some (walkAt 0 true 0 0) := by decide

/-- Each reason for which an instruction is not enabled. -/
theorem witness_DisabledInstructionsChangeNothing :
    let tag (s : State) := nodeTag (s.dec.tmRead s.dec.cur)
    (inDec .idle).dec.state ≠ .run ∧ (walkAt 1 true 0 5).dec.emitPending = true ∧ (walkAt 0 false 0 0).dec.bitcnt = 0 ∧
    (tag (walkAt 1 false 0 5) = true ∧ (walkAt 1 false 0 5).dec.emitPending = false) ∧ tag (walkAt 0 false 0 5) = false ∧
    (tag (walkAtLone false 0 0) = true ∧ (walkAtLone false 0 0).dec.mid = false ∧ (walkAtLone false 0 0).dec.bitcnt = 0) ∧
    (walkAt 0 false 0x80 1).dec.shreg.getLsbD 7 = true ∧ (walkAt 0 false 0x7F 1).dec.shreg.getLsbD 7 = false ∧
    (packAt 1 0 0 0 false).pack.symReady = false ∧
    ((packAt 0 0 0 0 false).pack.symReady = true ∧ ¬(0#8 ≠ (0 : CodeLen))) := by decide

/-- No node; the root at the node count; the last root below it; a state other than IDLE; and the step that leaves IDLE. -/
theorem witness_StartBeginsTheScanOrRaisesNoTree :
    let none := State.reset
    let edge := { State.reset with dec := { decIn .idle with root := 3 } }
    let last := { State.reset with dec := { decIn .idle with root := 2 } }
    (none.dec.state = .idle ∧ none.dec.nnodes = 0) ∧
    (edge.dec.state = .idle ∧ edge.dec.root.toNat ≥ edge.dec.nnodes.toNat) ∧
    (last.dec.state = .idle ∧ ¬(last.dec.nnodes = 0 ∨ last.dec.root.toNat ≥ last.dec.nnodes.toNat)) ∧
    (inDec .run).dec.state ≠ .idle ∧
    (dec? (step (last.withAgenda [.regWrite 0x0#4 1#32]))).map (·.state) = some .validate := by decide

/-- An illegal entry, the last entry of a full memory, and an entry with another behind it. -/
theorem witness_ScanStepChecksOneEntry :
    let bad := { Decoder.atReset [(0, 0x40020200#32)] with nnodes := 3, state := .validate }
    let last := { Decoder.atReset [(511, 0x80000061#32)] with nnodes := 512, state := .validate, vptr := 511 }
    let more := { decIn .validate with vptr := 1 }
    (bad.state = .validate ∧ nodeOk (bad.tmRead bad.vptr) bad.nnodes = false) ∧
    (last.state = .validate ∧ nodeOk (last.tmRead last.vptr) last.nnodes = true ∧
      last.vptr.toNat + 1 = last.nnodes.toNat) ∧
    (more.state = .validate ∧ nodeOk (more.tmRead more.vptr) more.nnodes = true ∧
      more.vptr.toNat + 1 ≠ more.nnodes.toNat) := by decide

/-- No tree, a tree with an illegal entry, and a legal tree. -/
theorem witness_ValidationFindsTheLeastIllegalEntry :
    let go := [Event.regWrite 0x0#4 1#32]
    let none := State.reset.withAgenda go
    let bad := { State.reset with dec :=
      { Decoder.atReset [(0, 0x80000061#32), (1, 0x40020200#32)] with nnodes := 2 } }.withAgenda go
    let good := (inDec .idle).withAgenda go
    (none.dec.state = .idle ∧ none.dec.nnodes.toNat ≤ 512 ∧ none.host.agenda = go ∧ none.dec.nnodes = 0) ∧
    (bad.dec.state = .idle ∧ bad.dec.nnodes.toNat ≤ 512 ∧ bad.host.agenda = go ∧
      ¬(bad.dec.nnodes = 0 ∨ bad.dec.root.toNat ≥ bad.dec.nnodes.toNat) ∧
      leastIllegal bad.dec.tmRead bad.dec.nnodes = some 1) ∧
    (good.dec.state = .idle ∧ good.dec.nnodes.toNat ≤ 512 ∧ good.host.agenda = go ∧
      ¬(good.dec.nnodes = 0 ∨ good.dec.root.toNat ≥ good.dec.nnodes.toNat) ∧
      leastIllegal good.dec.tmRead good.dec.nnodes = Option.none) := by decide

/-- Both states that take it, and one that does not. -/
theorem witness_EosIsSetDuringARun :
    (inDec .validate).dec.state = .validate ∧ (inDec .run).dec.state = .run ∧
    ¬((inDec .idle).dec.state = .validate ∨ (inDec .idle).dec.state = .run) := by decide

/-- Both states that take it, and one that does not. -/
theorem witness_ClearAcknowledgesTheEnd :
    (inDec .done).dec.state = .done ∧ (inDec .error).dec.state = .error ∧
    ¬((inDec .run).dec.state = .done ∨ (inDec .run).dec.state = .error) := by decide

/-- Each clause, and reserved values on both sides of the legal ones. -/
theorem witness_UntimelyDecoderActsAreIgnored :
    (inDec .run).dec.state ≠ .idle ∧ ((inDec .idle).dec.state ≠ .validate ∧ (inDec .idle).dec.state ≠ .run) ∧
    ((inDec .run).dec.state ≠ .done ∧ (inDec .run).dec.state ≠ .error) ∧
    (0#32 ≠ 1#32 ∧ 0#32 ≠ 2#32 ∧ 0#32 ≠ 3#32 ∧ 4#32 ≠ 1#32 ∧ 4#32 ≠ 2#32 ∧ 4#32 ≠ 3#32) ∧
    (inDec .done).dec.state ≠ .run ∧ (inDec .run).dec.state = .run := by decide

/-- IDLE and not, and a step that changes an entry. -/
theorem witness_TreeEntriesAreWrittenInIdle :
    (inDec .idle).dec.state = .idle ∧ (inDec .run).dec.state ≠ .idle ∧
    (dec? (step ((inDec .idle).withAgenda [.tmWrite 511 7#32]))).map (·.tm) ≠ some (inDec .idle).dec.tm := by decide

/-- The largest legal values and the smallest illegal ones, and a state other than IDLE. -/
theorem witness_ConfigurationWritesTakeLegalValues :
    (inDec .idle).dec.state = .idle ∧ (512#32).toNat ≤ 512 ∧ (511#32).toNat ≤ 511 ∧
    ¬((inDec .idle).dec.state = .idle ∧ (513#32).toNat ≤ 512) ∧
    ¬((inDec .idle).dec.state = .idle ∧ (512#32).toNat ≤ 511) ∧
    ¬((inDec .run).dec.state = .idle ∧ (0#32).toNat ≤ 512) := by decide

theorem witness_ReadsHaveNoSideEffect :
    ((inDec .run).withAgenda [.regRead 0x1#4]).host.agenda = .regRead 0x1#4 :: [] := by decide

theorem witness_PackStartBeginsARun :
    (inPack .idle).pack.state = .idle ∧ (inPack .run).pack.state ≠ .idle := by decide

theorem witness_FlushIsSetDuringARun : (inPack .run).pack.state = .run ∧ (inPack .idle).pack.state ≠ .run := by decide

theorem witness_PackClearAcknowledgesTheEnd :
    (inPack .done).pack.state = .done ∧ (inPack .error).pack.state = .error ∧
    ¬((inPack .run).pack.state = .done ∨ (inPack .run).pack.state = .error) := by decide

theorem witness_UntimelyPackerActsAreIgnored :
    (inPack .run).pack.state ≠ .idle ∧ (inPack .idle).pack.state ≠ .run ∧ (inPack .run).pack.state = .run ∧
    ((inPack .run).pack.state ≠ .done ∧ (inPack .run).pack.state ≠ .error) ∧
    (0#32 ≠ 1#32 ∧ 0#32 ≠ 2#32 ∧ 0#32 ≠ 3#32 ∧ 4#32 ≠ 1#32 ∧ 4#32 ≠ 2#32 ∧ 4#32 ≠ 3#32) := by decide

/-- IDLE and not, and a step that changes an entry. -/
theorem witness_TableEntriesAreWrittenInIdle :
    (inPack .idle).pack.state = .idle ∧ (inPack .run).pack.state ≠ .idle ∧
    (pack? (step ((inPack .idle).withAgenda [.ctWrite 255 255 1]))).map (·.ct) ≠ some (inPack .idle).pack.ct := by decide

/-- The longest code, with seven bits already in the byte. -/
theorem witness_CodedSymbolLoadsItsCode :
    let p := { (packAt 0 0 0 7 false).pack with ct := [(0x61, ⟨255#8, 1#255⟩)] }
    p.symReady = true ∧ p.ctRead 0x61 = ⟨255, 1⟩ ∧ (255 : CodeLen) ≠ 0 := by decide

theorem witness_AbsentSymbolRaisesUnknownSymbol :
    let p := (packAt 0 0 1 1 false).pack
    p.symReady = true ∧ p.ctRead 0x7A = ⟨0, 0⟩ := by decide

/-- The last place of the byte and the longest code; the first place and the last bit. -/
theorem witness_ShiftAppendsTheNextCodeBit :
    let p := (packAt 255 1 0 7 false).pack
    let q := (packAt 1 1 0 0 true).pack
    (p.state = .run ∧ p.acclen.toNat < 8 ∧ p.clen.toNat > 0) ∧
    (q.state = .run ∧ q.acclen.toNat < 8 ∧ q.clen.toNat > 0) := by decide

/-- With the byte port drained and not drained. -/
theorem witness_FullByteIsTransferred :
    let s := packAt 3 1 0x70 8 false
    let t := { s with host := { s.host with byteReady := false } }
    (s.pack.state = .run ∧ s.pack.acclen = 8 ∧ s.host.byteReady = true) ∧
    (t.pack.state = .run ∧ t.pack.acclen = 8 ∧ t.host.byteReady = false) := by decide

/-- One bit, seven bits and no bit in the byte. -/
theorem witness_FlushPadsAndFinishes :
    let p := (packAt 0 0 1 1 true).pack
    let q := (packAt 0 0 1 7 true).pack
    let r := (packAt 0 0 0 0 true).pack
    (p.state = .run ∧ p.flush = true ∧ p.clen = 0 ∧ 0 < p.acclen.toNat ∧ p.acclen.toNat < 8) ∧
    (q.state = .run ∧ q.flush = true ∧ q.clen = 0 ∧ 0 < q.acclen.toNat ∧ q.acclen.toNat < 8) ∧
    (r.state = .run ∧ r.flush = true ∧ r.clen = 0 ∧ r.acclen = 0) := by decide

/-- One bitpacker in each of the five situations, and one outside RUN. -/
theorem witness_PackerSituationsExcludeEachOther :
    let full := (packAt 1 0 0 8 true).pack
    let code := (packAt 1 0 0 7 true).pack
    let pad := (packAt 0 0 0 7 true).pack
    let fin := (packAt 0 0 0 0 true).pack
    let wait := (packAt 0 0 0 7 false).pack
    (full.state = .run ∧ full.acclen = 8) ∧
    (code.state = .run ∧ code.acclen.toNat < 8 ∧ code.clen.toNat > 0) ∧
    (pad.state = .run ∧ pad.acclen.toNat < 8 ∧ pad.clen = 0 ∧ pad.flush = true ∧ pad.acclen.toNat > 0) ∧
    (fin.state = .run ∧ fin.acclen = 0 ∧ fin.clen = 0 ∧ fin.flush = true) ∧
    (wait.state = .run ∧ wait.acclen.toNat < 8 ∧ wait.clen = 0 ∧ wait.flush = false) ∧
    (inPack .idle).pack.state ≠ .run := by decide

/-- The payloads "ab" and "az" with the table `K1`: the second meets a symbol without a code, beside a decoder that waits in RUN. -/
theorem witness_PackerRunIsTheArtifact :
    let go (payload : List Byte) :=
      (inPack .idle).withAgenda (.regWrite 0x8#4 1#32 :: payload.map .symPush ++ [.regWrite 0x8#4 2#32])
    let s := go [0x61, 0x62]
    let t := { go [0x61, 0x7A] with dec := (walkAt 0 true 0 0).dec }
    (s.pack.state = .idle ∧ s.dec.canStep s.host.outReady = false ∧ s.host.byteReady = true ∧
      packRun s.pack.ctRead [0x61, 0x62] = ([0x40], none)) ∧
    (t.pack.state = .idle ∧ t.dec.state = .run ∧ t.dec.canStep t.host.outReady = false ∧ t.host.byteReady = true ∧
      packRun t.pack.ctRead [0x61, 0x7A] = ([], some 0x7A)) := by decide

/-- Each of the four clauses. -/
theorem witness_StepRunsTheDecodedInstruction :
    let c := (inDec .idle).withAgenda [.regWrite 0x0#4 1#32]
    let y := (packAt 0 0 0 0 false).withAgenda [.symPush 0x62]
    let n := (walkAt 1 true 0 0).withAgenda [.decoderTurn]
    let w := walkAt 0 false 0x80 1
    (c.host.agenda = .regWrite 0x0#4 1#32 :: [] ∧ decode (.command 0x0#4 1#32) = .ok .dStart) ∧
    (y.host.agenda = .symPush 0x62 :: [] ∧ y.pack.symReady = true ∧
      decode (.entry 0x62 (y.pack.ctRead 0x62).len (y.pack.ctRead 0x62).bits) = .ok (.code 0x62 1 1)) ∧
    (n.host.agenda = .decoderTurn :: [] ∧ decode (.node (n.dec.tmRead n.dec.cur)) = .ok (.leaf 0 0 0x61) ∧
      n.dec.emitPending = true ∧ n.host.outReady = true) ∧
    (w.host.agenda = [] ∧ decode (.node (w.dec.tmRead w.dec.cur)) = .ok (.int 1 2 0) ∧
      decode (.bit (w.dec.shreg.getLsbD 7)) = .ok .b1 ∧ w.dec.walkEnabled = true) := by decide

/-- Both units at the end of a run: a step that leaves them, the clear and `rst`. -/
theorem witness_EndedRunIsLeftOnlyByClearOrReset :
    let s : State := { State.reset with dec := decIn .error, pack := { Packer.atReset tableAB with state := .done } }
    s.dec.state = .error ∧ s.pack.state = .done ∧ after? (step s) = some s ∧
    (dec? (step (s.withAgenda [.regWrite 0x0#4 3#32]))).map (·.state) = some .idle ∧
    (pack? (step (s.withAgenda [.regWrite 0x8#4 3#32]))).map (·.state) = some .idle ∧
    (dec? (step (s.withAgenda [.rst]))).map (·.nnodes) = some 0 := by decide

/-- A step during a run of each unit. -/
theorem witness_RunInputsAreFrozen :
    let s : State := { State.reset with dec := (walkAt 0 false 0x70 8).dec, pack := (packAt 1 1 0 0 false).pack }
    s.dec.state ≠ .idle ∧ s.pack.state ≠ .idle ∧ (dec? (step s)).isSome = true := by decide

/-- A step that emits, a step that transfers a byte, and a step that empties a trace. -/
theorem witness_TracesGrowOneItemAtATime :
    (dec? (step (walkAt 1 true 0 0))).map (·.out) = some [0x61] ∧
    (pack? (step (packAt 0 0 0x70 8 false))).map (·.bytes) = some [0x70] ∧
    (dec? (step ({ State.reset with dec := { decIn .idle with out := [0x61] } }.withAgenda [.regWrite 0x0#4 1#32]))).map
      (·.out) = some [] := by decide

/-- A step for each change of each flag. -/
theorem witness_FlagsChangeOnlyAsTabled :
    (dec? (step (walkAt 0 false 0x70 8))).map (·.mid) = some true ∧
    (dec? (step (walkAt 1 true 0 0))).map (·.mid) = some false ∧
    (dec? (step ((inDec .validate).withAgenda [.regWrite 0x0#4 2#32]))).map (·.eos) = some true ∧
    (dec? (step ({ State.reset with dec := { decIn .idle with eos := true } }.withAgenda [.regWrite 0x0#4 1#32]))).map
      (·.eos) = some false ∧
    (pack? (step ((packAt 0 0 0 0 false).withAgenda [.regWrite 0x8#4 2#32]))).map (·.flush) = some true ∧
    (pack? (step ((packAt 0 0 0 0 true).withAgenda [.rst]))).map (·.flush) = some false := by decide

/-- Two states with one decoder and different bitpackers, and two with one bitpacker and different decoders. -/
theorem witness_UnitsNeverSeeEachOther :
    let s : State := { State.reset with dec := decIn .run, pack := (inPack .run).pack }
    let t : State := { State.reset with dec := decIn .run, pack := (inPack .idle).pack }
    let u : State := { State.reset with dec := decIn .idle, pack := (inPack .run).pack }
    (s.dec = t.dec ∧ s.host.outReady = t.host.outReady ∧ s.pack ≠ t.pack) ∧
    (s.pack = u.pack ∧ s.host.byteReady = u.host.byteReady ∧ s.dec ≠ u.dec) ∧
    (dec? (perform .decoderTurn s)).isSome = true ∧ (dec? (perform .decoderTurn t)).isSome = true ∧
    (dec? (perform .decoderTurn u)).isSome = true := by decide

/-- A decoder in the middle of a walk meets the invariant. -/
theorem walkAt_inv : (walkAt 0 false 0x70 8).Inv where
  dec :=
    { tmCanonical := by decide
      countLegal := by decide
      bitsLegal := by decide
      noErrorOutsideError := fun _ => ⟨rfl, rfl⟩
      inValidate := fun h => by cases h
      inRun := fun _ =>
        { treeOk := fun i hi => by
            have h3 : i.toNat < 3 := hi
            have hd : ∀ k : Fin 3,
                nodeOk ((walkAt 0 false 0x70 8).dec.tmRead (BitVec.ofNat 9 k)) (walkAt 0 false 0x70 8).dec.nnodes = true := by
              decide
            have hk := hd ⟨i.toNat, h3⟩
            rwa [show BitVec.ofNat 9 ((⟨i.toNat, h3⟩ : Fin 3) : Nat) = i by simp] at hk
          rootInTree := by decide
          curInTree := by decide
          atRoot := fun _ => rfl }
      inDone := fun h => by cases h
      inError := fun h => by cases h }
  pack :=
    { ctCanonical := rfl
      accLegal := by decide
      accHighZero := fun k _ => by simp [walkAt, State.reset, Packer.atReset]
      noErrorOutsideError := fun _ => ⟨rfl, rfl⟩
      inDone := fun h => by cases h
      inError := fun h => by cases h }

/-- The invariant and a step, in the middle of a walk. -/
theorem witness_InvIsKeptByEveryStep :
    (walkAt 0 false 0x70 8).Inv ∧
    step (walkAt 0 false 0x70 8) = .next (walkAt 1 true 0xE0 7) :=
  ⟨walkAt_inv, rfl⟩

theorem witness_InvGivesTheSevenItems :
    (walkAt 0 false 0x70 8).Inv ∧ (walkAt 0 false 0x70 8).dec.state = .run ∧ (walkAt 0 false 0x70 8).dec.mid = false :=
  ⟨walkAt_inv, rfl, rfl⟩

theorem witness_ResetSetsEveryRegister : ((inDec .run).withAgenda [.rst]).host.agenda = .rst :: [] := by decide

theorem witness_NothingHappensAfterReset : (inDec .run).host.agenda = [] ∧ (inDec .run).rst.dec.tm = treeAB := by decide

/-- Two memories written in different orders, of either entry type. -/
theorem witness_CanonicalMemoriesAreEqualIfTheyReadEqual :
    let m : Memory NodeWord := Memory.write (Memory.write [] 511 7#32) 0 9#32
    let m' : Memory NodeWord := Memory.write (Memory.write [] 0 9#32) 511 7#32
    let c : Memory CodeEntry := Memory.write (Memory.write [] 255 ⟨1, 0⟩) 0 ⟨255, 1⟩
    let c' : Memory CodeEntry := Memory.write (Memory.write [] 0 ⟨255, 1⟩) 255 ⟨1, 0⟩
    (Memory.wf 512 m = true ∧ Memory.wf 512 m' = true ∧ ∀ i, Memory.read? m i = Memory.read? m' i) ∧
    (Memory.wf 256 c = true ∧ Memory.wf 256 c' = true ∧ ∀ i, Memory.read? c i = Memory.read? c' i) :=
  ⟨⟨rfl, rfl, fun _ => rfl⟩, ⟨rfl, rfl, fun _ => rfl⟩⟩

/-- Every clause of the recursion, at nodes of `T1`. -/
theorem witness_WalkFollowsItsRecursion :
    let T := (decIn .run).tmRead
    (nodeTag (T 1) = true) ∧ ¬(false = true ∧ nodeTag (T 0) = true) ∧ nodeTag (T 0) = false ∧
    ¬(false = true ∧ nodeTag (T 2) = true) ∧ nodeTag (T 2) = true := by decide

/-- A walk step, a step that ends the run with a mismatch, one that ends it with no byte left, and an accepted byte. -/
theorem witness_DecoderStepsKeepTheRunsResult :
    let s := walkAt 0 false 0x70 8
    let t := walkAtLone false 0x80 1
    let u := { State.reset with dec := { (walkAt 0 false 0 0).dec with eos := true } }
    let v := walkAt 0 false 0 0
    (s.dec.state = .run ∧ s.dec.bitcnt.toNat ≤ 8 ∧ (dec? (decoderStep s)).map (·.state) = some .run) ∧
    (t.dec.state = .run ∧ t.dec.bitcnt.toNat ≤ 8 ∧ (dec? (decoderStep t)).map (fun d => (d.state, d.errcode)) =
      some (.error, .treeMismatch)) ∧
    (u.dec.state = .run ∧ u.dec.bitcnt.toNat ≤ 8 ∧ (dec? (decoderStep u)).map (·.state) = some .done) ∧
    (v.dec.state = .run ∧ v.dec.bitcnt.toNat ≤ 8 ∧ v.dec.inReady = true) := by decide

/-- 95_test_vectors.md P1: the byte 0x70 with `T1`; and its result by R131. -/
theorem witness_DecoderRunIsTheWalk :
    let s := (walkAt 0 false 0 0).withAgenda [.inPush 0x70, .regWrite 0x0#4 2#32]
    (s.dec.state = .run ∧ s.dec.cur = s.dec.root ∧ s.dec.mid = false ∧ s.dec.bitcnt = 0 ∧ s.dec.eos = false ∧
      s.dec.out = [] ∧ s.host.outReady = true ∧
      s.host.agenda = [0x70].map .inPush ++ [.regWrite 0x0#4 2#32]) ∧
    decodeBits s.dec.tmRead s.dec.root ([0x70].flatMap streamBits) =
      ([0x61, 0x62, 0x62, 0x62, 0x61, 0x61, 0x61, 0x61], .done) := by decide

/-- The tree of `T1`. -/
def treeOfAB : PrefixTree := .node (.leaf 0x61) (.leaf 0x62)

/-- The indices of `T1` in its arena. -/
theorem treeAB_indices : indices (decIn .run).tmRead treeOfAB 0 = [0, 1, 2] := by decide

/-- R201: `T1` is a proper tree, loaded in three entries. -/
theorem witness_ProperTreesLoadAndHaveATable : LoadedTree (decIn .run).tmRead 3 treeOfAB 0 where
  proper :=
    { holds := ⟨by decide, ⟨by decide, by decide⟩, by decide, by decide⟩
      oneVariant := fun i hi => by
        rw [treeAB_indices] at hi
        obtain rfl | rfl | rfl : i = 0 ∨ i = 1 ∨ i = 2 := by simpa using hi
        · exact ⟨.int 1 2 0, by decide⟩
        · exact ⟨.leaf 0 0 0x61, by decide⟩
        · exact ⟨.leaf 0 0 0x62, by decide⟩
      unshared := by decide
      distinct := by decide }
  numbered := by
    rw [treeAB_indices]
    decide

/-- R201: the same leaf as both children of the root is shared, and two leaves with one symbol are not distinct. -/
theorem test_improper_trees :
    let T : Arena := fun i => if i = 0 then 0x60020100#32 else 0x80000061#32
    let t : PrefixTree := .node (.leaf 0x61) (.leaf 0x61)
    Represents T t 0 ∧ ¬(indices T t 0).Nodup ∧ ¬t.symbols.Nodup :=
  ⟨⟨by decide, ⟨by decide, by decide⟩, by decide, by decide⟩, by decide, by decide⟩

/-- R207, and 95_test_vectors.md K1: "0" is `(1, 0)`, "1" is `(1, 1)`, and "0111" is `(4, 7)` (R97 item 3). -/
theorem test_loaded_entries :
    treeOfAB.table 0x61 = ⟨1, 0⟩ ∧ treeOfAB.table 0x62 = ⟨1, 1⟩ ∧ treeOfAB.table 0x7A = ⟨0, 0⟩ ∧
    codeEntry [false, true, true, true] = ⟨4, 7⟩ := by decide

/-- R205: its codes; a code begins itself. -/
theorem witness_TreeCodesArePrefixFree :
    (PrefixTree.node (.leaf 0x61) (.leaf 0x62)).codes[1]? = some (0x62, [true]) ∧ [true] <+: [true] := by decide

/-- A table with an entry for every symbol: `K1`, every other symbol absent. -/
def wholeTable (y : Byte) : CodeEntry := if y = 0x61 then ⟨1, 0⟩ else if y = 0x62 then ⟨1, 1⟩ else ⟨0, 0⟩

theorem wholeTable_tableOf : TableOf wholeTable treeOfAB where
  coded := fun y c h => by
    simp only [treeOfAB, PrefixTree.codes, PrefixTree.paths, List.map_cons, List.map_nil, List.cons_append,
      List.nil_append, List.mem_cons, List.not_mem_nil, or_false, Prod.mk.injEq] at h
    obtain ⟨rfl, rfl⟩ | ⟨rfl, rfl⟩ := h <;> decide
  others := by decide

/-- `T1` holds its tree, the table is that of the tree, and "abbb" is a payload (95_test_vectors.md P5). -/
theorem witness_RoundTripGivesThePayloadFirst :
    Represents (decIn .run).tmRead treeOfAB 0 ∧ TableOf wholeTable treeOfAB ∧
    (∀ y ∈ [0x61#8, 0x62, 0x62, 0x62], y ∈ treeOfAB.symbols) ∧
    packRun wholeTable [0x61, 0x62, 0x62, 0x62] = ([0x70], none) :=
  ⟨⟨by decide, ⟨by decide, by decide⟩, by decide, by decide⟩, wholeTable_tableOf, by decide, by decide⟩

/-- A code table with an entry listed for every symbol, as R264 asks of a host: `K1`, every other symbol absent. -/
def loadedTable : Memory CodeEntry := (List.range 256).map fun i => (i, wholeTable (BitVec.ofNat 8 i))

/-- Both units loaded, a payload pushed between the start and the flush. -/
def loaded : State :=
  { dec := { decIn .idle with root := 0 }
    pack := Packer.atReset loadedTable
    host := { State.reset.host with agenda := .regWrite 0x8#4 1#32 :: [0x61#8, 0x62].map .symPush ++ [.regWrite 0x8#4 2#32] } }

/-- A memory with one entry for each of `n` indices from `lo` on. -/
theorem read?_range' {α : Type} (f : Nat → α) (n lo k : Nat) (h : lo ≤ k) (hk : k < lo + n) :
    Memory.read? ((List.range' lo n).map fun i => (i, f i)) k = some (f k) := by
  induction n generalizing lo with
  | zero => omega
  | succ n ih =>
    rw [List.range'_succ, List.map_cons, Memory.read?]
    split_ifs with he
    · rw [he]
    · exact ih (lo + 1) (by omega) (by omega)

theorem loaded_ctRead : loaded.pack.ctRead = wholeTable := by
  funext y
  have hr := read?_range' (fun i => wholeTable (BitVec.ofNat 8 i)) 256 0 y.toNat (by omega) (by omega)
  rw [← List.range_eq_range'] at hr
  simp only [BitVec.ofNat_toNat, BitVec.setWidth_eq] at hr
  show (Memory.read? loadedTable y.toNat).getD _ = _
  rw [loadedTable, hr]
  rfl

theorem loaded_tree (i : NodeIdx) (hi : i.toNat < 3) : nodeOk (loaded.dec.tmRead i) 3 = true := by
  have hd : ∀ k : Fin 3, nodeOk (loaded.dec.tmRead (BitVec.ofNat 9 k)) 3 = true := by decide
  have hk := hd ⟨i.toNat, hi⟩
  rwa [show BitVec.ofNat 9 ((⟨i.toNat, hi⟩ : Fin 3) : Nat) = i by simp] at hk

theorem witness_MachineRoundTripGivesThePayloadFirst :
    loaded.dec.state = .idle ∧ loaded.pack.state = .idle ∧ loaded.host.outReady = true ∧ loaded.host.byteReady = true ∧
    loaded.dec.nnodes.toNat ≤ 512 ∧ loaded.dec.root.toNat < loaded.dec.nnodes.toNat ∧
    (∀ i : NodeIdx, i.toNat < loaded.dec.nnodes.toNat → nodeOk (loaded.dec.tmRead i) loaded.dec.nnodes = true) ∧
    Represents loaded.dec.tmRead treeOfAB loaded.dec.root ∧ TableOf loaded.pack.ctRead treeOfAB ∧
    (∀ y ∈ [0x61#8, 0x62], y ∈ treeOfAB.symbols) ∧
    loaded.host.agenda = .regWrite 0x8#4 1#32 :: [0x61#8, 0x62].map .symPush ++ [.regWrite 0x8#4 2#32] :=
  ⟨rfl, rfl, rfl, rfl, by decide, by decide, loaded_tree,
    ⟨by decide, ⟨by decide, by decide⟩, by decide, by decide⟩,
    loaded_ctRead ▸ wholeTable_tableOf, by decide, rfl⟩

end Sys2Proof.Tests
end

section
/-! SUPPORT. The register port and `rst` (10_state.md rules R41 to R51): what a read of each register returns, what a write of it does, and
how the host's next act becomes a step. -/

namespace Sys2Proof.Machine

variable (s : State) (v : RegWord)

/-! ### The host's next act -/

/-- An act for which the host does not wait is the next step (log 3). -/
theorem step_of_agenda_cons {s : State} {e : Event} {rest : List Event} (ha : s.host.agenda = e :: rest)
    (hb : blocked e s = false) : step s = perform e (s.withAgenda rest) := by
  simp [step, advance, ha, hb]

/-- A step of the decoder that leaves the decoder as it is leaves the whole state as it is. -/
theorem State.mapDec_of_fixed {s : State} {f : Decoder → Decoder} (h : f s.dec = s.dec) : s.mapDec f = s := by
  rw [State.mapDec, h]

/-! ### Reads -/

/-- A read gives the host the value and changes neither unit (R150). -/
theorem perform_regRead (a : RegAddr) : perform (.regRead a) s =
    .next { s with host := { s.host with reads := s.host.reads ++ [s.regValue a] } } := rfl

@[simp] theorem State.regValue_dStatus : s.regValue 0x1#4 = s.dec.status := rfl
@[simp] theorem State.regValue_dNnodes : s.regValue 0x2#4 = s.dec.nnodes.setWidth 32 := rfl
@[simp] theorem State.regValue_dRoot : s.regValue 0x3#4 = s.dec.root.setWidth 32 := rfl
@[simp] theorem State.regValue_dErrinfo : s.regValue 0x4#4 = s.dec.errinfo.setWidth 32 := rfl
@[simp] theorem State.regValue_pStatus : s.regValue 0x9#4 = s.pack.status := rfl
@[simp] theorem State.regValue_pErrinfo : s.regValue 0xA#4 = s.pack.errinfo.setWidth 32 := rfl

/-- The command registers and the reserved addresses hold nothing to read (R42, R47, R50). -/
theorem State.regValue_of_notReadable {a : RegAddr} (h : a ∉ [0x1#4, 0x2#4, 0x3#4, 0x4#4, 0x9#4, 0xA#4]) :
    s.regValue a = 0 := by
  simp only [List.mem_cons, List.not_mem_nil, or_false, not_or] at h
  obtain ⟨h1, h2, h3, h4, h9, hA⟩ := h
  rw [State.regValue, if_neg h1, if_neg h2, if_neg h3, if_neg h4, if_neg h9, if_neg hA]

/-- A value that fits a register's width reads back as it was written. -/
theorem setWidth_setWidth_of_fits (k : Nat) {v : RegWord} (h : v.toNat < 2 ^ k) : (v.setWidth k).setWidth 32 = v := by
  apply BitVec.eq_of_toNat_eq
  rw [BitVec.toNat_setWidth, BitVec.toNat_setWidth, Nat.mod_eq_of_lt h, Nat.mod_eq_of_lt v.isLt]

/-! ### Writes -/

/-- A write elsewhere than to `D_CMD` and `P_CMD` carries no command (R41, R95). -/
theorem decode_command_of_notCommandRegister {a : RegAddr} (h0 : a ≠ 0x0#4) (h8 : a ≠ 0x8#4) :
    decode (.command a v) = .error .notACommandRegister := by
  rw [decode, decodeCommand, if_neg h0, if_neg h8]

/-- The status and info registers and the reserved addresses ignore every write (R43, R46, R48 to R50). -/
theorem perform_regWrite_of_notWritable {a : RegAddr} (h : a ∉ [0x0#4, 0x2#4, 0x3#4, 0x8#4]) :
    perform (.regWrite a v) s = .next s := by
  simp only [List.mem_cons, List.not_mem_nil, or_false, not_or] at h
  obtain ⟨h0, h2, h3, h8⟩ := h
  simp [perform, regWrite, decode_command_of_notCommandRegister v h0 h8, h2, h3]

/-- A write of `D_NNODES` is the decoder's (R44). -/
theorem perform_regWrite_dNnodes :
    perform (.regWrite 0x2#4 v) s = .next (s.mapDec (Decoder.writeNnodes v)) := rfl

/-- A write of `D_ROOT` is the decoder's (R45). -/
theorem perform_regWrite_dRoot : perform (.regWrite 0x3#4 v) s = .next (s.mapDec (Decoder.writeRoot v)) := rfl

variable {v} {d : Decoder}

theorem Decoder.writeNnodes_of_legal (hi : d.state = .idle) (hv : v.toNat ≤ 512) :
    d.writeNnodes v = { d with nnodes := v.setWidth 10 } := if_pos ⟨hi, hv⟩

theorem Decoder.writeNnodes_of_not_legal (h : ¬(d.state = .idle ∧ v.toNat ≤ 512)) : d.writeNnodes v = d := if_neg h

theorem Decoder.writeRoot_of_legal (hi : d.state = .idle) (hv : v.toNat ≤ 511) :
    d.writeRoot v = { d with root := v.setWidth 9 } := if_pos ⟨hi, hv⟩

theorem Decoder.writeRoot_of_not_legal (h : ¬(d.state = .idle ∧ v.toNat ≤ 511)) : d.writeRoot v = d := if_neg h

end Sys2Proof.Machine
end

section
/-! The obligations of 10_state.md about the registers and `rst`. -/

namespace Sys2Proof.Machine

/-- Settles O23: a write is the decoder's conditional update, and a legal value fits the register (512 in 10 bits, 511 in 9). -/
theorem configurationWritesTakeLegalValues : Obligations.ConfigurationWritesTakeLegalValues := by
  intro s v
  refine ⟨fun hi hv => ⟨?_, ?_⟩, fun h => ?_, fun hi hv => ⟨?_, ?_⟩, fun h => ?_, ?_, ?_, rfl, rfl⟩
  · rw [perform_regWrite_dNnodes, State.mapDec, Decoder.writeNnodes_of_legal hi hv]
  · exact setWidth_setWidth_of_fits 10 (by omega)
  · rw [perform_regWrite_dNnodes, State.mapDec_of_fixed (Decoder.writeNnodes_of_not_legal h)]
  · rw [perform_regWrite_dRoot, State.mapDec, Decoder.writeRoot_of_legal hi hv]
  · exact setWidth_setWidth_of_fits 9 (by omega)
  · rw [perform_regWrite_dRoot, State.mapDec_of_fixed (Decoder.writeRoot_of_not_legal h)]
  · rw [State.regValue_dNnodes, BitVec.toNat_setWidth_of_le (by decide)]
  · rw [State.regValue_dRoot, BitVec.toNat_setWidth_of_le (by decide)]

/-- Settles O24: each field of `D_STATUS` is read by dropping what stands below and above it in the concatenation. -/
theorem decoderStatusShowsItsFields : Obligations.DecoderStatusShowsItsFields := by
  intro s
  simp only [State.regValue_dStatus]
  refine ⟨?_, ?_, ?_, ?_, ?_, ?_, ?_, ?_, by decide, perform_regRead s _,
    fun x => perform_regWrite_of_notWritable s x (by decide)⟩
  all_goals
    simp (disch := decide) only [Decoder.status, BitVec.extractLsb'_append_eq_of_le, BitVec.extractLsb'_append_eq_of_add_le,
      BitVec.extractLsb'_eq_self, BitVec.getLsbD_append, BitVec.getLsbD_ofBool, BitVec.ofNat_eq_ofNat, Nat.reduceSub,
      Nat.reduceLT, ↓reduceIte, decide_true, Bool.true_and]

/-- Settles O25: as for `D_STATUS`, field by field. -/
theorem packerStatusShowsItsFields : Obligations.PackerStatusShowsItsFields := by
  intro s
  simp only [State.regValue_pStatus]
  refine ⟨?_, ?_, ?_, ?_, ?_, ?_, ?_, by decide, perform_regRead s _,
    fun x => perform_regWrite_of_notWritable s x (by decide)⟩
  all_goals
    simp (disch := decide) only [Packer.status, BitVec.extractLsb'_append_eq_of_le, BitVec.extractLsb'_append_eq_of_add_le,
      BitVec.extractLsb'_eq_self, BitVec.getLsbD_append, BitVec.getLsbD_ofBool, BitVec.ofNat_eq_ofNat, Nat.reduceSub,
      Nat.reduceLT, ↓reduceIte, decide_true, Bool.true_and]

/-- Settles O26: each listed address is one that is not readable, or one that is not writable. -/
theorem otherRegistersReadAndIgnore : Obligations.OtherRegistersReadAndIgnore := by
  intro s
  refine ⟨?_, ?_, s.regValue_of_notReadable (by decide), s.regValue_of_notReadable (by decide),
    fun a ha => s.regValue_of_notReadable ?_, fun a ha x => perform_regWrite_of_notWritable s x ?_,
    perform_regRead s, rfl, rfl⟩
  · rw [State.regValue_dErrinfo, BitVec.toNat_setWidth_of_le (by decide)]
  · rw [State.regValue_pErrinfo, BitVec.toNat_setWidth_of_le (by decide)]
  · revert a; decide
  · revert a; decide

/-- Settles O51: the host never waits before `rst`, and `rst` puts both units in their reset state around their memories. -/
theorem resetSetsEveryRegister : Obligations.ResetSetsEveryRegister := by
  intro s rest ha
  rw [step_of_agenda_cons ha rfl]
  rfl

end Sys2Proof.Machine
end

section
/-! SUPPORT. The decoder in RUN (40_decoder_walk.md rules R120 to R129): when each of its steps is enabled, what its own step is then, and what
the node and bit instructions do then. -/

namespace Sys2Proof.Machine

variable {d : Decoder} {s : State}

/-! ### The enabling conditions (R120) -/

theorem Decoder.emitPending_iff : d.emitPending = true ↔ d.state = .run ∧ d.mid = true ∧ d.curTag = true := by
  simp [Decoder.emitPending, and_assoc]

theorem Decoder.walkEnabled_iff :
    d.walkEnabled = true ↔ d.state = .run ∧ d.emitPending = false ∧ d.bitcnt ≠ 0 := by
  simp [Decoder.walkEnabled, and_assoc]

theorem Decoder.endEnabled_iff :
    d.endEnabled = true ↔ d.state = .run ∧ d.emitPending = false ∧ d.bitcnt = 0 ∧ d.eos = true := by
  simp [Decoder.endEnabled, and_assoc]

theorem Decoder.inReady_iff :
    d.inReady = true ↔ d.state = .run ∧ d.emitPending = false ∧ d.bitcnt = 0 ∧ d.eos = false := by
  simp [Decoder.inReady, and_assoc]

/-- At a Leaf with nothing consumed no emit is pending. -/
theorem Decoder.emitPending_of_not_mid (hm : d.mid = false) : d.emitPending = false := by
  simp [Decoder.emitPending, hm]

/-- At an Internal node no emit is pending. -/
theorem Decoder.emitPending_of_internal (ht : d.curTag = false) : d.emitPending = false := by
  simp [Decoder.emitPending, ht]

/-- A decoder that is ready for a byte has no step of its own (R129). -/
theorem Decoder.canStep_of_inReady (h : d.inReady = true) (r : Bool) : d.canStep r = false := by
  obtain ⟨hr, he, hc, hs⟩ := Decoder.inReady_iff.1 h
  simp [Decoder.canStep, Decoder.walkEnabled, Decoder.endEnabled, hr, he, hc, hs]

/-! ### What the decoder's own step is in each situation -/

theorem decoderStep_of_emitPending (he : s.dec.emitPending = true) (ho : s.host.outReady = true) :
    decoderStep s = exec s.dec.fetchNode s := by
  simp [decoderStep, he, ho, (Decoder.emitPending_iff.1 he).1]

theorem decoderStep_of_emitPending_waiting (he : s.dec.emitPending = true) (ho : s.host.outReady = false) :
    decoderStep s = .next s := by
  simp [decoderStep, he, ho, (Decoder.emitPending_iff.1 he).1]

theorem decoderStep_of_walkEnabled (hw : s.dec.walkEnabled = true) : decoderStep s = exec s.dec.fetchNode s := by
  obtain ⟨hr, he, -⟩ := Decoder.walkEnabled_iff.1 hw
  simp [decoderStep, hr, he, hw]

/-- With no bit left and no emit pending, what remains is `D_END`. -/
theorem decoderStep_of_noBit (hr : s.dec.state = .run) (he : s.dec.emitPending = false) (hc : s.dec.bitcnt = 0) :
    decoderStep s = .next (s.mapDec Decoder.finish) := by
  simp [decoderStep, Decoder.walkEnabled, hr, he, hc]

/-- A decoder that is ready for a byte waits (R129). -/
theorem decoderStep_of_inReady (h : s.dec.inReady = true) : decoderStep s = .next s := by
  obtain ⟨hr, he, hc, hs⟩ := Decoder.inReady_iff.1 h
  rw [decoderStep_of_noBit hr he hc, State.mapDec_of_fixed (by simp [Decoder.finish, Decoder.endEnabled, hs])]

/-! ### The instruction at `CUR` -/

/-- Where a word that encodes `i` stands at `CUR`, the decoder fetches `i`. -/
theorem Decoder.fetchNode_of_encode {i : Instr} (h : .node (d.tmRead d.cur) = encode i)
    (hi : decode (encode i) = .ok i) : d.fetchNode = i :=
  nodeInstr_of_decodeNode (by rwa [← h] at hi)

theorem Decoder.curTag_of_fetchNode_int {l r : NodeIdx} {y : Byte} (h : d.fetchNode = .int l r y) :
    d.curTag = false := by
  cases ht : d.curTag with
  | false => rfl
  | true => rw [Decoder.fetchNode_of_leaf ht] at h; cases h

theorem Decoder.curTag_of_fetchNode_leaf {l r : NodeIdx} {y : Byte} (h : d.fetchNode = .leaf l r y) :
    d.curTag = true := by
  cases ht : d.curTag with
  | false => rw [Decoder.fetchNode_of_internal ht] at h; cases h
  | true => rfl

/-- The symbol on the output port is that of the `LEAF` fetched (R124). -/
theorem Decoder.outSym_of_fetchNode_leaf {l r : NodeIdx} {y : Byte} (h : d.fetchNode = .leaf l r y) :
    d.outSym = y := by
  rw [Decoder.fetchNode_of_leaf (Decoder.curTag_of_fetchNode_leaf h)] at h
  injection h

/-! ### What the instructions do where they are enabled -/

/-- A consumed bit is shifted out at the top (R28). -/
theorem Decoder.consumeBit_eq :
    d.consumeBit = { d with shreg := d.shreg <<< 1, bitcnt := d.bitcnt - 1, mid := true } := by
  rw [Decoder.consumeBit, shiftIn_false]

theorem Decoder.descend_eq (child : NodeIdx) :
    d.descend child = { d with shreg := d.shreg <<< 1, bitcnt := d.bitcnt - 1, cur := child, mid := true } := by
  rw [Decoder.descend, Decoder.consumeBit_eq]

/-- At a lone Leaf the bit 0 is consumed (R125). -/
theorem Decoder.walkAtLeaf_false : d.walkAtLeaf false = d.consumeBit := rfl

/-- At a lone Leaf the bit 1 raises TreeMismatch (R125, R236). -/
theorem Decoder.walkAtLeaf_true : d.walkAtLeaf true = d.raise .treeMismatch d.cur := rfl

/-- `INT` (R121). -/
theorem exec_int_of_walkEnabled (hw : s.dec.walkEnabled = true) (ht : s.dec.curTag = false) (l r : NodeIdx) (y : Byte) :
    exec (.int l r y) s = .next { s with dec := s.dec.descend (if s.dec.nextBit then r else l) } := by
  simp [exec, execInt, State.mapDec, hw, ht]

/-- `LEAF` reached by a walk (R124). -/
theorem exec_leaf_of_emitPending (he : s.dec.emitPending = true) (l r : NodeIdx) (y : Byte) :
    exec (.leaf l r y) s = .next { s with dec := s.dec.emit y } := by
  simp [exec, execLeaf, State.mapDec, he]

/-- `LEAF` at the root of a single-leaf tree (R125). -/
theorem exec_leaf_of_walkEnabled (hw : s.dec.walkEnabled = true) (ht : s.dec.curTag = true) (l r : NodeIdx) (y : Byte) :
    exec (.leaf l r y) s = .next { s with dec := s.dec.walkAtLeaf s.dec.nextBit } := by
  simp [exec, execLeaf, State.mapDec, hw, ht, (Decoder.walkEnabled_iff.1 hw).2.1]

/-- An enabled walk at an Internal node goes to the child of the next bit. -/
theorem exec_fetchNode_of_internal (hw : s.dec.walkEnabled = true) (ht : s.dec.curTag = false) :
    exec s.dec.fetchNode s = .next { s with
      dec := s.dec.descend (if s.dec.nextBit then nodeRight s.dec.curWord else nodeLeft s.dec.curWord) } := by
  rw [Decoder.fetchNode_of_internal ht, exec_int_of_walkEnabled hw ht]

/-- An enabled walk at a Leaf takes one bit there. -/
theorem exec_fetchNode_of_leaf (hw : s.dec.walkEnabled = true) (ht : s.dec.curTag = true) :
    exec s.dec.fetchNode s = .next { s with dec := s.dec.walkAtLeaf s.dec.nextBit } := by
  rw [Decoder.fetchNode_of_leaf ht, exec_leaf_of_walkEnabled hw ht]

/-- A walk step is the node at `CUR` and the next stream bit at once: either instruction has the same effect (log 8). -/
theorem exec_fetchBit_of_walkEnabled (hw : s.dec.walkEnabled = true) :
    exec s.dec.fetchBit s = exec s.dec.fetchNode s := by
  cases ht : s.dec.curTag with
  | false =>
    rw [exec_fetchNode_of_internal hw ht]
    cases hb : s.dec.nextBit <;> simp [Decoder.fetchBit, bitInstr, exec, execB0, execB1, State.mapDec, hw, ht, hb]
  | true =>
    rw [exec_fetchNode_of_leaf hw ht]
    cases hb : s.dec.nextBit <;> simp [Decoder.fetchBit, bitInstr, exec, execB0, execB1, State.mapDec, hw, ht, hb]

/-- `D_END` at the root (R126). -/
theorem Decoder.finish_of_not_mid (hf : d.endEnabled = true) (hm : d.mid = false) :
    d.finish = { d with state := .done } := by
  simp [Decoder.finish, hf, hm]

/-- `D_END` inside a code (R127). -/
theorem Decoder.finish_of_mid (hf : d.endEnabled = true) (hm : d.mid = true) :
    d.finish = d.raise .streamCorruption d.cur := by
  simp [Decoder.finish, hf, hm]

/-! ### The host waits for the decoder -/

/-- A unit's own step leaves the host's side as it is. -/
theorem unitsStep_host (s : State) : ∃ s', unitsStep s = .next s' ∧ s'.host = s.host := by
  unfold unitsStep
  split_ifs
  · obtain ⟨d', -, h⟩ := decoderStep_move s
    exact ⟨_, h, rfl⟩
  · exact ⟨_, rfl, rfl⟩

/-- Before an act for which the host waits, the step is a unit's own (log 3, log 4). -/
theorem step_of_blocked {e : Event} {rest : List Event} (ha : s.host.agenda = e :: rest) (hb : blocked e s = true) :
    step s = unitsStep s := by
  simp [step, advance, ha, hb]

/-- What can move a decoder that is ready for a byte: the byte, `D_EOS`, or `rst` (R129). -/
theorem Decoder.move_of_inReady {a : Option Event} {d' : Decoder} (h : d.inReady = true) (m : DecoderMove a d d') :
    d' = d ∨ (∃ b, a = some (.inPush b)) ∨ a = some (.regWrite 0x0#4 2#32) ∨ a = some .rst := by
  obtain ⟨hr, he, hc, hs⟩ := Decoder.inReady_iff.1 h
  cases m with
  | stay => exact .inl rfl
  | push b _ ha => exact .inr (.inl ⟨b, ha⟩)
  | eos _ ha => exact .inr (.inr (.inl ha))
  | rst ha => exact .inr (.inr (.inr ha))
  | emit h => simp [he] at h
  | descend hw _ => exact absurd hc (Decoder.walkEnabled_iff.1 hw).2.2
  | leafBit hw _ => exact absurd hc (Decoder.walkEnabled_iff.1 hw).2.2
  | finish h => simp [(Decoder.endEnabled_iff.1 h).2.2.2] at hs
  | scan h => simp [hr] at h
  | load _ _ h _ => simp [hr] at h
  | count _ h _ => simp [hr] at h
  | rootSet _ h _ => simp [hr] at h
  | startNoTree h _ _ => simp [hr] at h
  | start h _ _ => simp [hr] at h
  | clear h _ => simp [hr] at h

end Sys2Proof.Machine
end

section
/-! The obligations of 40_decoder_walk.md. -/

namespace Sys2Proof.Machine

/-- Settles O14: a decoder ready for a byte has no own step, and of the moves a step can be only the three named are left to it. -/
theorem decoderWaitsForInput : Obligations.DecoderWaitsForInput := by
  intro s hr he hc hs
  have hi : s.dec.inReady = true := Decoder.inReady_iff.2 ⟨hr, he, hc, hs⟩
  exact ⟨decoderStep_of_inReady hi, Decoder.canStep_of_inReady hi true,
    fun _ h => Decoder.move_of_inReady hi (step_cases h).dec⟩

/-- Settles O6: the word at `CUR` is fetched as the `INT` it encodes, and the walk is enabled there. -/
theorem intGoesToTheChildOfTheNextBit : Obligations.IntGoesToTheChildOfTheNextBit := by
  intro s l r y h hr hc
  have hf : s.dec.fetchNode = .int l r y := Decoder.fetchNode_of_encode h (Laws.DecodeEncode.int l r y rfl)
  have ht := Decoder.curTag_of_fetchNode_int hf
  have hw := Decoder.walkEnabled_iff.2 ⟨hr, Decoder.emitPending_of_internal ht, hc⟩
  refine ⟨?_, by rw [decoderStep_of_walkEnabled hw, hf]⟩
  rw [exec_int_of_walkEnabled hw ht, Decoder.descend_eq, Decoder.nextBit]
  cases s.dec.shreg.getLsbD 7 <;> rfl

/-- Settles O7: the word at `CUR` is fetched as the `LEAF` it encodes, and its emission is pending. -/
theorem leafReachedIsEmitted : Obligations.LeafReachedIsEmitted := by
  intro s l r y h hr hm
  have hf : s.dec.fetchNode = .leaf l r y := Decoder.fetchNode_of_encode h (Laws.DecodeEncode.leaf l r y rfl)
  have he := Decoder.emitPending_iff.2 ⟨hr, hm, Decoder.curTag_of_fetchNode_leaf hf⟩
  refine ⟨he, Decoder.outSym_of_fetchNode_leaf hf, exec_leaf_of_emitPending he l r y, fun ho => ?_,
    decoderStep_of_emitPending_waiting he⟩
  rw [decoderStep_of_emitPending he ho, hf]

/-- Settles O8: with nothing consumed no emit is pending, so the walk is enabled at the `LEAF`. -/
theorem leafAtTheRootTakesOneBit : Obligations.LeafAtTheRootTakesOneBit := by
  intro s l r y h hr hm hc
  have hf : s.dec.fetchNode = .leaf l r y := Decoder.fetchNode_of_encode h (Laws.DecodeEncode.leaf l r y rfl)
  have hw := Decoder.walkEnabled_iff.2 ⟨hr, Decoder.emitPending_of_not_mid hm, hc⟩
  have hx := exec_leaf_of_walkEnabled hw (Decoder.curTag_of_fetchNode_leaf hf) l r y
  refine ⟨fun hb => ?_, fun hb => ?_, by rw [decoderStep_of_walkEnabled hw, hf]⟩
  · rw [hx, Decoder.nextBit, hb, Decoder.walkAtLeaf_false, Decoder.consumeBit_eq]
  · rw [hx, Decoder.nextBit, hb, Decoder.walkAtLeaf_true]; rfl

/-- Settles O9: `B0` is the bit fetched, so it does what the node at `CUR` does with that bit. -/
theorem zeroBitSelectsTheLeftChild : Obligations.ZeroBitSelectsTheLeftChild := by
  intro s hr he hc hb
  have hw := Decoder.walkEnabled_iff.2 ⟨hr, he, hc⟩
  have hx : exec .b0 s = exec s.dec.fetchNode s := by
    rw [← exec_fetchBit_of_walkEnabled hw, Decoder.fetchBit, Decoder.nextBit, hb]; rfl
  refine ⟨?_, by rw [hx, decoderStep_of_walkEnabled hw]⟩
  cases ht : nodeTag (s.dec.tmRead s.dec.cur) with
  | false => rw [hx, exec_fetchNode_of_internal hw ht, Decoder.descend_eq, Decoder.nextBit, hb]; rfl
  | true =>
    rw [hx, exec_fetchNode_of_leaf hw ht, Decoder.nextBit, hb, Decoder.walkAtLeaf_false, Decoder.consumeBit_eq]
    rfl

/-- Settles O10: as for `B0`, with the bit 1. -/
theorem oneBitSelectsTheRightChild : Obligations.OneBitSelectsTheRightChild := by
  intro s hr he hc hb
  have hw := Decoder.walkEnabled_iff.2 ⟨hr, he, hc⟩
  have hx : exec .b1 s = exec s.dec.fetchNode s := by
    rw [← exec_fetchBit_of_walkEnabled hw, Decoder.fetchBit, Decoder.nextBit, hb]; rfl
  refine ⟨fun ht => ?_, fun ht => ?_, by rw [hx, decoderStep_of_walkEnabled hw]⟩
  · rw [hx, exec_fetchNode_of_internal hw ht, Decoder.descend_eq, Decoder.nextBit, hb]; rfl
  · rw [hx, exec_fetchNode_of_leaf hw ht, Decoder.nextBit, hb, Decoder.walkAtLeaf_true]; rfl

/-- Settles O11: in RUN `emit_pending` is MID at a Leaf, and without it BITCNT and EOS decide which of the other three holds. -/
theorem decoderSituationsExcludeEachOther : Obligations.DecoderSituationsExcludeEachOther := by
  intro d
  have hp (hr : d.state = .run) (hn : ¬(d.mid = true ∧ nodeTag (d.tmRead d.cur) = true)) : d.emitPending = false :=
    Bool.eq_false_iff.2 fun he => hn (Decoder.emitPending_iff.1 he).2
  simp only [Decoder.walkEnabled, Decoder.endEnabled, Decoder.inReady]
  refine ⟨fun hr => ⟨fun he => ?_, fun hn hc => ?_, fun hn hc hs => ?_, fun hn hc hs => ?_⟩, fun hr => ?_⟩
  · have he : d.emitPending = true := Decoder.emitPending_iff.2 ⟨hr, he⟩
    simp [he]
  · simp [hr, hp hr hn, show d.bitcnt ≠ 0#4 from hc]
  · simp [hr, hp hr hn, hc, hs]
  · simp [hr, hp hr hn, hc, hs]
  · simp [Decoder.emitPending, hr]

/-- Settles O12: the step is `D_END`, whose condition holds, and MID selects its case. -/
theorem exhaustedStreamEndsTheRun : Obligations.ExhaustedStreamEndsTheRun := by
  intro s hr he hc hs
  have hf : s.dec.endEnabled = true := Decoder.endEnabled_iff.2 ⟨hr, he, hc, hs⟩
  rw [decoderStep_of_noBit hr he hc, State.mapDec]
  refine ⟨fun hm => ?_, fun hm => ?_⟩
  · rw [Decoder.finish_of_not_mid hf hm]
  · rw [Decoder.finish_of_mid hf hm]; rfl

/-- Settles O13: the host waits before the push exactly while `in_ready` is 0, and a unit's own step leaves its agenda alone. -/
theorem bytesAreAcceptedWhenReady : Obligations.BytesAreAcceptedWhenReady := by
  intro s b rest ha
  refine ⟨fun h => ?_, fun h => ?_⟩
  · have hi : s.dec.inReady = true := Decoder.inReady_iff.2 h
    rw [step_of_agenda_cons ha (by simp [blocked, hi]), perform, State.mapDec, State.withAgenda_dec,
      Decoder.inPush, if_pos hi]
    rfl
  · have hi : s.dec.inReady = false := Bool.eq_false_iff.2 fun hi => h (Decoder.inReady_iff.1 hi)
    obtain ⟨s', hs, hh⟩ := unitsStep_host s
    exact ⟨s', by rw [step_of_blocked ha (by simp [blocked, hi]), hs], by rw [hh]⟩

end Sys2Proof.Machine
end

section
/-! SUPPORT. The decoder around the walk (41_decoder_control.md rules R140 to R149): each command, load and scan step where it is
taken and where it is not, and which steps can leave IDLE or change the tree memory. -/

namespace Sys2Proof.Machine

variable {d : Decoder} {s : State}

/-! ### Commands (R143, R147, R148) -/

/-- A write that carries a command runs it (R95). -/
theorem perform_regWrite_of_decode {a : RegAddr} {v : RegWord} {i : Instr} (h : decode (.command a v) = .ok i) :
    perform (.regWrite a v) s = exec i s := by
  simp only [perform, regWrite, h]

/-- A reserved value written to `D_CMD` carries no command (R95, R99). -/
theorem decode_command_of_reserved {v : RegWord} (h1 : v ≠ 1#32) (h2 : v ≠ 2#32) (h3 : v ≠ 3#32) :
    decode (.command 0x0#4 v) = .error .reservedCommand := by
  rw [decode, decodeCommand, if_pos rfl, if_neg h1, if_neg h2, if_neg h3]

/-- A reserved value written to `D_CMD` changes nothing (R149). -/
theorem perform_regWrite_dCmd_of_reserved {v : RegWord} (h1 : v ≠ 1#32) (h2 : v ≠ 2#32) (h3 : v ≠ 3#32) :
    perform (.regWrite 0x0#4 v) s = .next s := by
  simp [perform, regWrite, decode_command_of_reserved h1 h2 h3]

/-- There is no tree where no node is loaded, or where the root names none of those loaded (R143, R235). -/
theorem Decoder.noTree_iff : d.noTree = true ↔ d.nnodes = 0 ∨ d.root.toNat ≥ d.nnodes.toNat := by
  simp [Decoder.noTree]

theorem exec_dStart_of_noTree (hi : s.dec.state = .idle) (ht : s.dec.noTree = true) :
    exec .dStart s = .next { s with dec := s.dec.initRun.raise .noTree s.dec.root } := by
  simp [exec, execDStart, State.mapDec, hi, ht]

theorem exec_dStart_of_tree (hi : s.dec.state = .idle) (ht : s.dec.noTree = false) :
    exec .dStart s = .next { s with dec := { s.dec.initRun with state := .validate } } := by
  simp [exec, execDStart, State.mapDec, hi, ht]

theorem exec_dStart_of_not_idle (h : s.dec.state ≠ .idle) : exec .dStart s = .next s :=
  congrArg Host.Outcome.next (State.mapDec_of_fixed (if_neg h))

theorem exec_dEos_of_running (h : s.dec.state = .validate ∨ s.dec.state = .run) :
    exec .dEos s = .next { s with dec := { s.dec with eos := true } } := by
  rw [exec, execDEos, State.mapDec, if_pos h]

theorem exec_dEos_of_not_running (h : ¬(s.dec.state = .validate ∨ s.dec.state = .run)) : exec .dEos s = .next s :=
  congrArg Host.Outcome.next (State.mapDec_of_fixed (if_neg h))

theorem exec_dClear_of_ended (h : s.dec.state = .done ∨ s.dec.state = .error) :
    exec .dClear s = .next { s with dec := s.dec.acknowledge } := by
  rw [exec, execDClear, State.mapDec, if_pos h]

theorem exec_dClear_of_not_ended (h : ¬(s.dec.state = .done ∨ s.dec.state = .error)) : exec .dClear s = .next s :=
  congrArg Host.Outcome.next (State.mapDec_of_fixed (if_neg h))

/-! ### Loading (R140) -/

theorem perform_tmWrite_of_idle (hi : s.dec.state = .idle) (i : NodeIdx) (w : NodeWord) :
    perform (.tmWrite i w) s = .next { s with dec := s.dec.tmStore i w } := by
  rw [perform, State.mapDec, Decoder.tmWrite, if_pos hi]

theorem perform_tmWrite_of_not_idle (h : s.dec.state ≠ .idle) (i : NodeIdx) (w : NodeWord) :
    perform (.tmWrite i w) s = .next s :=
  congrArg Host.Outcome.next (State.mapDec_of_fixed (if_neg h))

/-! ### The validation scan (R144) -/

/-- The comparison that ends the scan does not wrap: `VPTR` has 9 bits and is compared with 10. -/
theorem scanEnd_iff (i : NodeIdx) (n : NodeCount) : i.setWidth 10 + 1#10 = n ↔ i.toNat + 1 = n.toNat := by
  have hi : (i.setWidth 10 + 1#10).toNat = i.toNat + 1 := by
    rw [BitVec.toNat_add, BitVec.toNat_setWidth_of_le (by decide)]
    exact Nat.mod_eq_of_lt (by have := i.isLt; simp; omega)
  rw [← BitVec.toNat_inj, hi]

theorem Decoder.vStep_of_illegal (hv : d.state = .validate) (h : nodeOk d.scanWord d.nnodes = false) :
    d.vStep = d.raise .malformedTree d.vptr := by
  simp [Decoder.vStep, hv, h]

theorem Decoder.vStep_of_last (hv : d.state = .validate) (h : nodeOk d.scanWord d.nnodes = true)
    (hl : d.vptr.toNat + 1 = d.nnodes.toNat) : d.vStep = { d with state := .run } := by
  rw [Decoder.vStep, if_pos hv, if_pos h, if_pos ((scanEnd_iff _ _).2 hl)]

theorem Decoder.vStep_of_not_last (hv : d.state = .validate) (h : nodeOk d.scanWord d.nnodes = true)
    (hl : d.vptr.toNat + 1 ≠ d.nnodes.toNat) : d.vStep = { d with vptr := d.vptr + 1 } := by
  rw [Decoder.vStep, if_pos hv, if_pos h, if_neg (mt (scanEnd_iff _ _).1 hl)]

/-- In VALIDATE the decoder's own step is the scan's. -/
theorem decoderStep_of_validate (hv : s.dec.state = .validate) :
    decoderStep s = .next { s with dec := s.dec.vStep } := if_pos hv

/-! ### What changes the tree memory, and what leaves IDLE (R140, R143) -/

@[simp] theorem Decoder.vStep_tm : d.vStep.tm = d.tm := by
  unfold Decoder.vStep
  split_ifs <;> rfl

@[simp] theorem Decoder.walkAtLeaf_tm (b : Bool) : (d.walkAtLeaf b).tm = d.tm := by
  cases b <;> rfl

@[simp] theorem Decoder.finish_tm : d.finish.tm = d.tm := by
  unfold Decoder.finish
  split_ifs <;> rfl

/-- The tree memory changes by a `TM_WRITE` taken in IDLE, and by nothing else. -/
theorem Decoder.move_tm {a : Option Event} {d' : Decoder} (m : DecoderMove a d d') :
    d'.tm = d.tm ∨ ∃ i w, d.state = .idle ∧ a = some (.tmWrite i w) ∧ d' = d.tmStore i w := by
  cases m with
  | load i w h ha => exact .inr ⟨i, w, h, ha, rfl⟩
  | stay => exact .inl rfl
  | scan _ => exact .inl Decoder.vStep_tm
  | emit _ => exact .inl rfl
  | descend _ _ => exact .inl rfl
  | leafBit _ _ => exact .inl (Decoder.walkAtLeaf_tm _)
  | finish _ => exact .inl Decoder.finish_tm
  | push _ _ _ => exact .inl rfl
  | count _ _ _ => exact .inl rfl
  | rootSet _ _ _ => exact .inl rfl
  | startNoTree _ _ _ => exact .inl rfl
  | start _ _ _ => exact .inl rfl
  | eos _ _ => exact .inl rfl
  | clear _ _ => exact .inl rfl
  | rst _ => exact .inl rfl

/-- A decoder in IDLE stays there, unless the host writes `D_START`. -/
theorem Decoder.move_of_idle {a : Option Event} {d' : Decoder} (hi : d.state = .idle) (m : DecoderMove a d d') :
    d'.state = .idle ∨ a = some (.regWrite 0x0#4 1#32) := by
  cases m with
  | startNoTree _ _ ha => exact .inr ha
  | start _ _ ha => exact .inr ha
  | stay => exact .inl hi
  | load _ _ _ _ => exact .inl hi
  | count _ _ _ => exact .inl hi
  | rootSet _ _ _ => exact .inl hi
  | clear _ _ => exact .inl rfl
  | rst _ => exact .inl rfl
  | scan h => simp [hi] at h
  | emit h => simp [hi, Decoder.emitPending_iff] at h
  | descend hw _ => simp [hi, Decoder.walkEnabled_iff] at hw
  | leafBit hw _ => simp [hi, Decoder.walkEnabled_iff] at hw
  | finish h => simp [hi, Decoder.endEnabled_iff] at h
  | push _ h _ => simp [hi, Decoder.inReady_iff] at h
  | eos h _ => simp [hi] at h

end Sys2Proof.Machine
end

section
/-! The obligations of 41_decoder_control.md about the commands, the loads and the scan, and of reads of registers. -/

namespace Sys2Proof.Machine

/-- Settles O16: NoTree decides between the two starts, and of the moves of a decoder in IDLE only a start leaves it. -/
theorem startBeginsTheScanOrRaisesNoTree : Obligations.StartBeginsTheScanOrRaisesNoTree := by
  intro s
  refine ⟨exec_dStart_of_not_idle, fun s' hi h hl => ?_, fun hi => ⟨fun ht => ?_, fun ht => ?_⟩⟩
  · exact (Decoder.move_of_idle hi (step_cases h).dec).resolve_left hl
  · exact exec_dStart_of_noTree hi (Decoder.noTree_iff.2 ht)
  · exact exec_dStart_of_tree hi (Bool.eq_false_iff.2 (mt Decoder.noTree_iff.1 ht))

/-- Settles O22: the write is `tmStore`, read back entry by entry, and of all moves only the load changes the memory. -/
theorem treeEntriesAreWrittenInIdle : Obligations.TreeEntriesAreWrittenInIdle := by
  intro s i w
  refine ⟨fun hi => ⟨_, perform_tmWrite_of_idle hi i w, fun j => ?_⟩, fun h => perform_tmWrite_of_not_idle h i w,
    fun s' h ht => ?_⟩
  · exact (s.dec.tmRead_tmStore i j w).trans (if_congr eq_comm rfl rfl)
  · obtain ⟨j, v, -, ha, -⟩ := (Decoder.move_tm (step_cases h).dec).resolve_left ht
    exact ⟨j, v, ha⟩

/-- Settles O17: in VALIDATE the decoder's step is the scan's, whose three cases are the statement's. -/
theorem scanStepChecksOneEntry : Obligations.ScanStepChecksOneEntry := by
  intro s hv
  rw [decoderStep_of_validate hv]
  refine ⟨fun h => ?_, fun h hl => ?_, fun h hl => ?_⟩
  · rw [Decoder.vStep_of_illegal hv h]; rfl
  · rw [Decoder.vStep_of_last hv h hl]
  · rw [Decoder.vStep_of_not_last hv h hl]

/-- Settles O19: `in_ready` needs EOS to be 0. -/
theorem eosIsSetDuringARun : Obligations.EosIsSetDuringARun := by
  intro s
  refine ⟨fun h => ⟨exec_dEos_of_running h, ?_⟩, exec_dEos_of_not_running⟩
  simp [Decoder.inReady]

/-- Settles O20: the taken command is the acknowledgement. -/
theorem clearAcknowledgesTheEnd : Obligations.ClearAcknowledgesTheEnd :=
  fun _ => ⟨exec_dClear_of_ended, exec_dClear_of_not_ended⟩

/-- Settles O21: each act is one whose condition fails, and a write of 1, 2 or 3 to `D_CMD` runs its command. -/
theorem untimelyDecoderActsAreIgnored : Obligations.UntimelyDecoderActsAreIgnored := by
  intro s v i w
  refine ⟨fun h => ?_, fun hv hr => ?_, fun hd he => ?_, perform_regWrite_dCmd_of_reserved, fun h => ?_, fun h => ?_⟩
  · have hs := exec_dStart_of_not_idle h
    refine ⟨hs, (perform_regWrite_of_decode rfl).trans hs, ?_, ?_, perform_tmWrite_of_not_idle h i w⟩
    · rw [perform_regWrite_dNnodes, State.mapDec_of_fixed (Decoder.writeNnodes_of_not_legal fun hl => h hl.1)]
    · rw [perform_regWrite_dRoot, State.mapDec_of_fixed (Decoder.writeRoot_of_not_legal fun hl => h hl.1)]
  · have hs := exec_dEos_of_not_running (not_or.2 ⟨hv, hr⟩)
    exact ⟨hs, (perform_regWrite_of_decode rfl).trans hs⟩
  · have hs := exec_dClear_of_not_ended (not_or.2 ⟨hd, he⟩)
    exact ⟨hs, (perform_regWrite_of_decode rfl).trans hs⟩
  · exact Bool.eq_false_iff.2 fun hi => h (Decoder.inReady_iff.1 hi).1
  · exact Decoder.inReady_iff.trans (and_iff_right h)

/-- Settles O27: the host never waits before a read, and a read only records the value. -/
theorem readsHaveNoSideEffect : Obligations.ReadsHaveNoSideEffect := by
  intro s a rest ha
  rw [step_of_agenda_cons ha rfl, perform_regRead]
  rfl

end Sys2Proof.Machine
end

section
/-! SUPPORT. The bitpacker (42_bitpacker.md rules R170 to R184): when each of its steps is enabled, what its own step is then, each command,
load and pushed symbol where it is taken and where it is not, and what changes the code table. -/

namespace Sys2Proof.Machine

variable {p : Packer} {s : State}

/-- A step of the bitpacker that leaves the bitpacker as it is leaves the whole state as it is. -/
theorem State.mapPack_of_fixed {f : Packer → Packer} (h : f s.pack = s.pack) : s.mapPack f = s := by
  rw [State.mapPack, h]

/-! ### The enabling conditions (R170) -/

theorem Packer.outEnabled_iff : p.outEnabled = true ↔ p.state = .run ∧ p.acclen = 8 := by
  simp [Packer.outEnabled]

theorem Packer.shiftEnabled_iff :
    p.shiftEnabled = true ↔ p.state = .run ∧ p.acclen.toNat < 8 ∧ p.clen ≠ 0 := by
  simp [Packer.shiftEnabled, BitVec.lt_def, and_assoc]

theorem Packer.padEnabled_iff : p.padEnabled = true ↔
    p.state = .run ∧ p.acclen.toNat < 8 ∧ p.clen = 0 ∧ p.flush = true ∧ p.acclen ≠ 0 := by
  simp [Packer.padEnabled, BitVec.lt_def, and_assoc]

theorem Packer.finishEnabled_iff : p.finishEnabled = true ↔
    p.state = .run ∧ p.acclen = 0 ∧ p.clen = 0 ∧ p.flush = true := by
  simp [Packer.finishEnabled, and_assoc]

theorem Packer.symReady_iff : p.symReady = true ↔
    p.state = .run ∧ p.clen = 0 ∧ p.flush = false ∧ p.acclen.toNat < 8 := by
  simp [Packer.symReady, BitVec.lt_def, and_assoc]

/-- A counter that is above 0 as a number is not 0. -/
theorem ne_zero_of_toNat_pos {w : Nat} {n : BitVec w} (h : 0 < n.toNat) : n ≠ 0 := (BitVec.ne_of_lt h).symm

/-- A byte with room is not offered. -/
theorem Packer.outEnabled_of_room (ha : p.acclen.toNat < 8) : p.outEnabled = false := by
  refine Bool.eq_false_iff.2 fun h => ?_
  simp [(Packer.outEnabled_iff.1 h).2] at ha

/-- With no code in progress there is nothing to shift. -/
theorem Packer.shiftEnabled_of_noCode (hc : p.clen = 0) : p.shiftEnabled = false :=
  Bool.eq_false_iff.2 fun h => (Packer.shiftEnabled_iff.1 h).2.2 hc

/-- With no partial byte there is nothing to pad. -/
theorem Packer.padEnabled_of_noBit (ha : p.acclen = 0) : p.padEnabled = false :=
  Bool.eq_false_iff.2 fun h => (Packer.padEnabled_iff.1 h).2.2.2.2 ha

/-! ### What the bitpacker's own step is in each situation (R174, R175, R177, R178) -/

/-- A bit shifted in stands at bit 0 of the byte shifted left. -/
theorem shiftIn_eq_or (v : Byte) (b : Bool) : shiftIn v b = v <<< 1 ||| (BitVec.ofBool b).setWidth 8 := by
  refine BitVec.eq_of_getLsbD_eq fun k hk => ?_
  rw [shiftIn_getLsbD]
  cases k with
  | zero => simp
  | succ k => simp [hk, BitVec.getLsbD_eq_getElem (show k < 8 by omega)]

theorem packerStep_of_outEnabled (ho : s.pack.outEnabled = true) (hb : s.host.byteReady = true) :
    packerStep s = .next { s with pack := { s.pack with
      bytes := s.pack.bytes ++ [s.pack.acc], acc := 0, acclen := 0 } } := by
  simp [packerStep, State.mapPack, Packer.step, Packer.transfer, ho, hb]

theorem packerStep_of_outEnabled_waiting (ho : s.pack.outEnabled = true) (hb : s.host.byteReady = false) :
    packerStep s = .next s :=
  congrArg Host.Outcome.next (State.mapPack_of_fixed (by simp [Packer.step, ho, hb]))

theorem packerStep_of_shiftEnabled (hs : s.pack.shiftEnabled = true) :
    packerStep s = .next { s with pack := { s.pack.appendBit s.pack.nextCodeBit with clen := s.pack.clen - 1 } } := by
  have ho := Packer.outEnabled_of_room (Packer.shiftEnabled_iff.1 hs).2.1
  simp [packerStep, State.mapPack, Packer.step, Packer.shift, ho, hs]

theorem packerStep_of_padEnabled (hp : s.pack.padEnabled = true) :
    packerStep s = .next { s with pack := s.pack.appendBit false } := by
  obtain ⟨-, ha, hc, -⟩ := Packer.padEnabled_iff.1 hp
  simp [packerStep, State.mapPack, Packer.step, Packer.pad, Packer.outEnabled_of_room ha,
    Packer.shiftEnabled_of_noCode hc, hp]

theorem packerStep_of_finishEnabled (hf : s.pack.finishEnabled = true) :
    packerStep s = .next { s with pack := { s.pack with state := .done } } := by
  obtain ⟨-, ha, hc, -⟩ := Packer.finishEnabled_iff.1 hf
  simp [packerStep, State.mapPack, Packer.step, Packer.finish, Packer.outEnabled_of_room (p := s.pack) (by simp [ha]),
    Packer.shiftEnabled_of_noCode hc, Packer.padEnabled_of_noBit ha, hf]

/-! ### Commands (R172, R176, R179, R180) -/

theorem exec_pStart_of_idle (hi : s.pack.state = .idle) :
    exec .pStart s = .next { s with pack := { s.pack with
      bytes := [], acc := 0, acclen := 0, cbuf := 0, clen := 0, flush := false,
      errcode := .noError, errinfo := 0, state := .run } } := by
  rw [exec, execPStart, State.mapPack, if_pos hi]

theorem exec_pStart_of_not_idle (h : s.pack.state ≠ .idle) : exec .pStart s = .next s :=
  congrArg Host.Outcome.next (State.mapPack_of_fixed (if_neg h))

theorem exec_pFlush_of_run (h : s.pack.state = .run) :
    exec .pFlush s = .next { s with pack := { s.pack with flush := true } } := by
  rw [exec, execPFlush, State.mapPack, if_pos h]

theorem exec_pFlush_of_not_run (h : s.pack.state ≠ .run) : exec .pFlush s = .next s :=
  congrArg Host.Outcome.next (State.mapPack_of_fixed (if_neg h))

theorem exec_pClear_of_ended (h : s.pack.state = .done ∨ s.pack.state = .error) :
    exec .pClear s = .next { s with pack := s.pack.acknowledge } := by
  rw [exec, execPClear, State.mapPack, if_pos h]

theorem exec_pClear_of_not_ended (h : ¬(s.pack.state = .done ∨ s.pack.state = .error)) : exec .pClear s = .next s :=
  congrArg Host.Outcome.next (State.mapPack_of_fixed (if_neg h))

/-- A reserved value written to `P_CMD` carries no command and changes nothing (R95, R99, R180). -/
theorem perform_regWrite_pCmd_of_reserved {v : RegWord} (h1 : v ≠ 1#32) (h2 : v ≠ 2#32) (h3 : v ≠ 3#32) :
    perform (.regWrite 0x8#4 v) s = .next s := by
  have hd : decode (.command 0x8#4 v) = .error .reservedCommand := by
    rw [decode, decodeCommand, if_neg (by decide), if_pos rfl, if_neg h1, if_neg h2, if_neg h3]
  simp [perform, regWrite, hd]

/-! ### Loading (R171), and what changes the code table -/

theorem perform_ctWrite_of_idle (hi : s.pack.state = .idle) (y : Byte) (n : CodeLen) (c : CodeField) :
    perform (.ctWrite y n c) s = .next { s with pack := s.pack.ctStore y n c } := by
  rw [perform, State.mapPack, Packer.ctWrite, if_pos hi]

theorem perform_ctWrite_of_not_idle (h : s.pack.state ≠ .idle) (y : Byte) (n : CodeLen) (c : CodeField) :
    perform (.ctWrite y n c) s = .next s :=
  congrArg Host.Outcome.next (State.mapPack_of_fixed (if_neg h))

/-- The code table changes by a `CT_WRITE` taken in IDLE, and by nothing else. -/
theorem Packer.move_ct {a : Option Event} {p' : Packer} (m : PackerMove a p p') :
    p'.ct = p.ct ∨ ∃ y n c, p.state = .idle ∧ a = some (.ctWrite y n c) ∧ p' = p.ctStore y n c := by
  cases m with
  | load y n c h ha => exact .inr ⟨y, n, c, h, ha, rfl⟩
  | stay => exact .inl rfl
  | shift _ => exact .inl rfl
  | transfer _ => exact .inl rfl
  | pad _ => exact .inl rfl
  | finish _ => exact .inl rfl
  | code _ _ _ _ => exact .inl rfl
  | unknown _ _ _ _ => exact .inl rfl
  | start _ _ => exact .inl rfl
  | flush _ _ => exact .inl rfl
  | clear _ _ => exact .inl rfl
  | rst _ => exact .inl rfl

/-! ### Pushed symbols (R173, R184) -/

theorem Packer.fetchEntry_of_code {y : Byte} {n : CodeLen} {c : CodeField} (h : p.ctRead y = ⟨n, c⟩) (hn : n ≠ 0) :
    p.fetchEntry y = .code y n c := by
  rw [Packer.fetchEntry, h]
  exact if_neg hn

theorem Packer.fetchEntry_of_absent {y : Byte} {c : CodeField} (h : p.ctRead y = ⟨0, c⟩) :
    p.fetchEntry y = .absent y c := by
  rw [Packer.fetchEntry, h]
  exact if_pos rfl

/-- An accepted symbol runs the instruction of its entry. -/
theorem perform_symPush_of_symReady (hr : s.pack.symReady = true) (y : Byte) :
    perform (.symPush y) s = exec (s.pack.fetchEntry y) s := if_pos hr

theorem exec_code_of_symReady (hr : s.pack.symReady = true) {n : CodeLen} (hn : n ≠ 0) (y : Byte) (c : CodeField) :
    exec (.code y n c) s = .next { s with pack := { s.pack with cbuf := c, clen := n } } := by
  rw [exec, execCode, State.mapPack, if_pos ⟨hr, hn⟩]

theorem exec_absent_of_symReady (hr : s.pack.symReady = true) (y : Byte) (c : CodeField) :
    exec (.absent y c) s = .next { s with pack := s.pack.raise .unknownSymbol y } := by
  rw [exec, execAbsent, State.mapPack, if_pos hr]

end Sys2Proof.Machine
end

section
/-! The obligations of 42_bitpacker.md about the commands, the loads, the pushed symbols and the unit's own steps. -/

namespace Sys2Proof.Machine

/-- Settles O32: the write is `ctStore`, read back entry by entry, and of all moves only the load changes the table. -/
theorem tableEntriesAreWrittenInIdle : Obligations.TableEntriesAreWrittenInIdle := by
  intro s y n c
  refine ⟨fun hi => ⟨_, perform_ctWrite_of_idle hi y n c, fun t => ?_⟩, fun h => perform_ctWrite_of_not_idle h y n c,
    fun s' h ht => ?_⟩
  · exact (s.pack.ctRead_ctStore y t n c).trans (if_congr eq_comm rfl rfl)
  · obtain ⟨z, l, b, -, ha, -⟩ := (Packer.move_ct (step_cases h).pack).resolve_left ht
    exact ⟨z, l, b, ha⟩

/-- Settles O28: the run begins with everything cleared, which makes the bitpacker ready for a symbol. -/
theorem packStartBeginsARun : Obligations.PackStartBeginsARun := by
  intro s
  refine ⟨exec_pStart_of_not_idle, fun hi => ⟨exec_pStart_of_idle hi, fun t ht => ?_⟩⟩
  rw [exec_pStart_of_idle hi] at ht
  cases ht
  exact Packer.symReady_iff.2 ⟨rfl, rfl, rfl, by simp⟩

/-- Settles O29: `sym_ready` needs FLUSH to be 0. -/
theorem flushIsSetDuringARun : Obligations.FlushIsSetDuringARun := by
  intro s
  refine ⟨fun h => ⟨exec_pFlush_of_run h, ?_⟩, exec_pFlush_of_not_run⟩
  simp [Packer.symReady]

/-- Settles O30: the taken command is the acknowledgement. -/
theorem packClearAcknowledgesTheEnd : Obligations.PackClearAcknowledgesTheEnd :=
  fun _ => ⟨exec_pClear_of_ended, exec_pClear_of_not_ended⟩

/-- Settles O31: each act is one whose condition fails, and a write of 1, 2 or 3 to `P_CMD` runs its command. -/
theorem untimelyPackerActsAreIgnored : Obligations.UntimelyPackerActsAreIgnored := by
  intro s v y n c
  refine ⟨fun h => ?_, fun h => ?_, fun h => Packer.symReady_iff.trans (and_iff_right h), fun hd he => ?_,
    perform_regWrite_pCmd_of_reserved⟩
  · have hs := exec_pStart_of_not_idle h
    exact ⟨hs, (perform_regWrite_of_decode rfl).trans hs, perform_ctWrite_of_not_idle h y n c⟩
  · have hs := exec_pFlush_of_not_run h
    exact ⟨hs, (perform_regWrite_of_decode rfl).trans hs,
      Bool.eq_false_iff.2 fun hr => h (Packer.symReady_iff.1 hr).1⟩
  · have hs := exec_pClear_of_not_ended (not_or.2 ⟨hd, he⟩)
    exact ⟨hs, (perform_regWrite_of_decode rfl).trans hs⟩

/-- Settles O33: the entry at the symbol is fetched as the `CODE` it holds. -/
theorem codedSymbolLoadsItsCode : Obligations.CodedSymbolLoadsItsCode := by
  intro s y n c hr he hn
  refine ⟨exec_code_of_symReady hr hn y c, ?_⟩
  rw [perform_symPush_of_symReady hr, Packer.fetchEntry_of_code he hn]

/-- Settles O34: the entry at the symbol is fetched as `ABSENT`, whose effect is the raise alone. -/
theorem absentSymbolRaisesUnknownSymbol : Obligations.AbsentSymbolRaisesUnknownSymbol := by
  intro s y c hr he
  refine ⟨exec_absent_of_symReady hr y c, ?_⟩
  rw [perform_symPush_of_symReady hr, Packer.fetchEntry_of_absent he]

/-- Settles O35: the step is `P_SHIFT`, and its bit enters the byte at bit 0. -/
theorem shiftAppendsTheNextCodeBit : Obligations.ShiftAppendsTheNextCodeBit := by
  intro s hr ha hc
  have hs := Packer.shiftEnabled_iff.2 ⟨hr, ha, ne_zero_of_toNat_pos hc⟩
  rw [packerStep_of_shiftEnabled hs, Packer.appendBit, shiftIn_eq_or]
  rfl

/-- Settles O36: the full byte is offered, and `byte_ready` decides between the transfer and the wait. -/
theorem fullByteIsTransferred : Obligations.FullByteIsTransferred := by
  intro s hr ha
  have ho := Packer.outEnabled_iff.2 ⟨hr, ha⟩
  exact ⟨ho, rfl, packerStep_of_outEnabled ho, packerStep_of_outEnabled_waiting ho⟩

/-- Settles O37: a partial byte enables `P_PAD`, whose bit 0 is a plain shift, and an empty one `P_FINISH`. -/
theorem flushPadsAndFinishes : Obligations.FlushPadsAndFinishes := by
  intro s hr hf hc
  refine ⟨fun h0 h8 => ?_, fun ha => packerStep_of_finishEnabled (Packer.finishEnabled_iff.2 ⟨hr, ha, hc, hf⟩)⟩
  have hp := Packer.padEnabled_iff.2 ⟨hr, h8, hc, hf, ne_zero_of_toNat_pos h0⟩
  rw [packerStep_of_padEnabled hp, Packer.appendBit, shiftIn_false]

/-- Settles O38: ACCLEN separates a full byte from one with room, then CLEN a code from none, then FLUSH and ACCLEN the last three. -/
theorem packerSituationsExcludeEachOther : Obligations.PackerSituationsExcludeEachOther := by
  intro p
  have room (ha : p.acclen.toNat < 8) : p.acclen < 8#4 := ha
  simp only [Packer.shiftEnabled, Packer.padEnabled, Packer.finishEnabled, Packer.symReady]
  refine ⟨fun hr => ⟨fun ha => ?_, fun ha hc => ?_, fun ha hc hf h0 => ?_, fun ha hc hf => ?_, fun ha hc hf => ?_⟩,
    fun hr => ?_⟩
  · simp [Packer.outEnabled_iff.2 ⟨hr, ha⟩, ha]
  · simp [hr, Packer.outEnabled_of_room ha, room ha, show p.clen ≠ 0#8 from ne_zero_of_toNat_pos hc]
  · simp [hr, Packer.outEnabled_of_room ha, room ha, hc, hf, show p.acclen ≠ 0#4 from ne_zero_of_toNat_pos h0]
  · simp [hr, Packer.outEnabled, ha, hc, hf]
  · simp [hr, Packer.outEnabled_of_room ha, room ha, hc, hf]
  · simp [Packer.outEnabled, hr]

end Sys2Proof.Machine
end

section
/-! SUPPORT. The end of a run (60_exceptions.md rules R239 to R243): when the status lines are 1, and what can move a unit in DONE or ERROR. -/

namespace Sys2Proof.Machine

variable {d : Decoder} {p : Packer} {a : Option Event}

/-! ### Status lines (R243) -/

theorem Decoder.doneLine_iff : d.doneLine = true ↔ d.state = .done := decide_eq_true_iff

theorem Decoder.errorLine_iff : d.errorLine = true ↔ d.state = .error := decide_eq_true_iff

theorem Packer.doneLine_iff : p.doneLine = true ↔ p.state = .done := decide_eq_true_iff

theorem Packer.errorLine_iff : p.errorLine = true ↔ p.state = .error := decide_eq_true_iff

/-! ### The moves of a unit whose run has ended (R240, R242, R268) -/

/-- A decoder in ERROR or DONE is not in a state that a step of a run, a load or a start needs. -/
theorem Decoder.not_active_of_ended (he : d.state = .error ∨ d.state = .done) :
    d.state ≠ .idle ∧ d.state ≠ .validate ∧ d.state ≠ .run := by
  obtain he | he := he <;> simp [he]

theorem Packer.not_active_of_ended (he : p.state = .error ∨ p.state = .done) :
    p.state ≠ .idle ∧ p.state ≠ .run := by
  obtain he | he := he <;> simp [he]

/-- What can move a decoder in ERROR or DONE: `D_CLEAR` and `rst`. Every other move needs IDLE, VALIDATE or RUN. -/
theorem Decoder.move_of_ended {d' : Decoder} (he : d.state = .error ∨ d.state = .done) (m : DecoderMove a d d') :
    d' = d ∨ (a = some (.regWrite 0x0#4 3#32) ∧ d' = d.acknowledge) ∨
      (a = some .rst ∧ d' = Decoder.atReset d.tm) := by
  obtain ⟨hi, hv, hr⟩ := Decoder.not_active_of_ended he
  cases m with
  | stay => exact .inl rfl
  | clear _ ha => exact .inr (.inl ⟨ha, rfl⟩)
  | rst ha => exact .inr (.inr ⟨ha, rfl⟩)
  | scan h => exact absurd h hv
  | emit h => exact absurd (Decoder.emitPending_iff.1 h).1 hr
  | descend hw _ => exact absurd (Decoder.walkEnabled_iff.1 hw).1 hr
  | leafBit hw _ => exact absurd (Decoder.walkEnabled_iff.1 hw).1 hr
  | finish h => exact absurd (Decoder.endEnabled_iff.1 h).1 hr
  | push _ h _ => exact absurd (Decoder.inReady_iff.1 h).1 hr
  | load _ _ h _ => exact absurd h hi
  | count _ h _ => exact absurd h hi
  | rootSet _ h _ => exact absurd h hi
  | startNoTree h _ _ => exact absurd h hi
  | start h _ _ => exact absurd h hi
  | eos h _ => exact absurd h (not_or.2 ⟨hv, hr⟩)

/-- What can move a bitpacker in ERROR or DONE: `P_CLEAR` and `rst`. Every other move needs IDLE or RUN. -/
theorem Packer.move_of_ended {p' : Packer} (he : p.state = .error ∨ p.state = .done) (m : PackerMove a p p') :
    p' = p ∨ (a = some (.regWrite 0x8#4 3#32) ∧ p' = p.acknowledge) ∨
      (a = some .rst ∧ p' = Packer.atReset p.ct) := by
  obtain ⟨hi, hr⟩ := Packer.not_active_of_ended he
  cases m with
  | stay => exact .inl rfl
  | clear _ ha => exact .inr (.inl ⟨ha, rfl⟩)
  | rst ha => exact .inr (.inr ⟨ha, rfl⟩)
  | shift h => exact absurd (Packer.shiftEnabled_iff.1 h).1 hr
  | transfer h => exact absurd (Packer.outEnabled_iff.1 h).1 hr
  | pad h => exact absurd (Packer.padEnabled_iff.1 h).1 hr
  | finish h => exact absurd (Packer.finishEnabled_iff.1 h).1 hr
  | code _ h _ _ => exact absurd (Packer.symReady_iff.1 h).1 hr
  | unknown _ h _ _ => exact absurd (Packer.symReady_iff.1 h).1 hr
  | load _ _ _ h _ => exact absurd h hi
  | start h _ => exact absurd h hi
  | flush h _ => exact absurd h hr

end Sys2Proof.Machine
end

section
/-! The obligations of 60_exceptions.md. -/

namespace Sys2Proof.Machine

/-- Settles O43: a step is a move of each unit, and of the moves only the clear command and `rst` are open to an ended run. -/
theorem endedRunIsLeftOnlyByClearOrReset : Obligations.EndedRunIsLeftOnlyByClearOrReset :=
  fun _ _ h => ⟨fun he => Decoder.move_of_ended he (step_cases h).dec,
    fun he => Packer.move_of_ended he (step_cases h).pack⟩

/-- Settles O41: `raise` sets the three fields, and the state it sets is the one the status line shows. -/
theorem raiseRecordsCodeAndInfoOnly : Obligations.RaiseRecordsCodeAndInfoOnly :=
  ⟨fun d e i => ⟨rfl, Decoder.errorLine_iff.2 (d.raise_state e i)⟩,
    fun p e y => ⟨rfl, Packer.errorLine_iff.2 (p.raise_state e y)⟩⟩

/-- Settles O42: the codes are tabled, and each status line is its state's own test. -/
theorem codesAndStatusLinesAreTheTabledOnes : Obligations.CodesAndStatusLinesAreTheTabledOnes :=
  ⟨rfl, rfl, rfl, fun _ => ⟨Decoder.doneLine_iff, Decoder.errorLine_iff⟩,
    fun _ => ⟨Packer.doneLine_iff, Packer.errorLine_iff⟩⟩

end Sys2Proof.Machine
end

section
/-! SUPPORT. The block at rest (70_reset_and_hazards.md rule R262): a unit in IDLE shows 0 on every line and has no step of its own, so that with
no act of the host the machine's step answers the state it is given. -/

namespace Sys2Proof.Machine

variable {d : Decoder} {p : Packer} {s : State}

/-! ### A unit in IDLE -/

/-- The handshake lines need RUN, the status lines DONE or ERROR. -/
theorem Decoder.lines_of_idle (hi : d.state = .idle) :
    d.inReady = false ∧ d.outValid = false ∧ d.doneLine = false ∧ d.errorLine = false := by
  refine ⟨?_, ?_, ?_, ?_⟩
  · simp [Decoder.inReady, hi]
  · simp [Decoder.outValid, Decoder.emitPending, hi]
  · simp [Decoder.doneLine, hi]
  · simp [Decoder.errorLine, hi]

theorem Packer.lines_of_idle (hi : p.state = .idle) :
    p.symReady = false ∧ p.byteValid = false ∧ p.doneLine = false ∧ p.errorLine = false := by
  refine ⟨?_, ?_, ?_, ?_⟩
  · simp [Packer.symReady, hi]
  · simp [Packer.byteValid, Packer.outEnabled, hi]
  · simp [Packer.doneLine, hi]
  · simp [Packer.errorLine, hi]

/-- The decoder's own steps need VALIDATE or RUN (R120, R144). -/
theorem Decoder.canStep_of_idle (hi : d.state = .idle) (r : Bool) : d.canStep r = false := by
  simp [Decoder.canStep, Decoder.emitPending, Decoder.walkEnabled, Decoder.endEnabled, hi]

/-- The bitpacker's own steps need RUN (R170). -/
theorem Packer.step_of_idle (hi : p.state = .idle) (r : Bool) : p.step r = p := by
  simp [Packer.step, Packer.outEnabled, Packer.shiftEnabled, Packer.padEnabled, Packer.finishEnabled, hi]

/-! ### Both units in IDLE and no act of the host -/

theorem step_of_idle_noAct (hd : s.dec.state = .idle) (hp : s.pack.state = .idle) (ha : s.host.agenda = []) :
    step s = .next s := by
  have hunits : step s = packerStep s := by simp [step, advance, unitsStep, ha, Decoder.canStep_of_idle hd]
  rw [hunits, packerStep, State.mapPack_of_fixed (Packer.step_of_idle hp _)]

/-- A state that a step does not change is one that no run changes. -/
theorem core_run_of_fixed (h : step s = .next s) (k : Nat) : core.run k s = .next s := by
  induction k with
  | zero => rfl
  | succ k ih => exact core_run_succ h ih

end Sys2Proof.Machine
end

section
/-! The obligation of 70_reset_and_hazards.md. -/

namespace Sys2Proof.Machine

/-- Settles O52: `rst` puts both units in IDLE, where every line is 0 and no unit has a step, so the state after it is a fixed point of the
step for as long as the host does not act. -/
theorem nothingHappensAfterReset : Obligations.NothingHappensAfterReset := by
  intro s r
  have hd : r.dec.state = .idle := rfl
  have hp : r.pack.state = .idle := rfl
  obtain ⟨hin, hout, hddone, hderr⟩ := Decoder.lines_of_idle hd
  obtain ⟨hsym, hbyte, hpdone, hperr⟩ := Packer.lines_of_idle hp
  exact ⟨hd, hp, hin, hsym, hout, hbyte, hddone, hderr, hpdone, hperr,
    fun ha => core_run_of_fixed (step_of_idle_noAct hd hp ha), rfl⟩

end Sys2Proof.Machine
end

section
/-! SUPPORT. The encodings (30_encoding.md rules R91 to R102): decoder and encoder as inverses, the legal node words by their opcode, and the
table's numbering read back item by item. -/

namespace Sys2Proof

/-! ### Decoder and encoder -/

/-- A well-formed instruction is what its item decodes to. -/
theorem decode_encode {i : Instr} (h : i.wellFormed = true) : decode (encode i) = .ok i := by
  cases i with
  | int l r y => exact Laws.DecodeEncode.int l r y h
  | leaf l r y => exact Laws.DecodeEncode.leaf l r y h
  | b0 => exact Laws.DecodeEncode.b0 h
  | b1 => exact Laws.DecodeEncode.b1 h
  | dStart => exact Laws.DecodeEncode.dStart h
  | dEos => exact Laws.DecodeEncode.dEos h
  | dClear => exact Laws.DecodeEncode.dClear h
  | pStart => exact Laws.DecodeEncode.pStart h
  | pFlush => exact Laws.DecodeEncode.pFlush h
  | pClear => exact Laws.DecodeEncode.pClear h
  | code y n c => exact Laws.DecodeEncode.code y n c h
  | absent y c => exact Laws.DecodeEncode.absent y c h

/-- A node word that decodes is the word its instruction is encoded in (R92). -/
theorem encode_of_decodeNode {w : NodeWord} {i : Instr} (h : decodeNode w = .ok i) :
    i.wellFormed = true ∧ encode i = .node w := by
  unfold decodeNode at h
  split_ifs at h with hint hleaf
  · cases h
    exact ⟨rfl, by rw [encode, ← hint, nodeWord_fields]⟩
  · cases h
    exact ⟨rfl, by rw [encode, ← hleaf, nodeWord_fields]⟩

/-- Every table entry is the one its instruction is encoded in (R93). -/
theorem encode_entryInstr (y : Byte) (n : CodeLen) (c : CodeField) :
    (entryInstr y n c).wellFormed = true ∧ encode (entryInstr y n c) = .entry y n c := by
  unfold entryInstr
  split_ifs with hn
  · exact ⟨rfl, by rw [encode, hn]⟩
  · exact ⟨bne_iff_ne.2 hn, rfl⟩

/-- An item that decodes is the one its instruction is encoded in. -/
theorem encode_of_decode {m : Item} {i : Instr} (h : decode m = .ok i) : i.wellFormed = true ∧ encode i = m := by
  cases m with
  | node w => exact encode_of_decodeNode h
  | entry y n c => cases h; exact encode_entryInstr y n c
  | command a v =>
    obtain ⟨rfl, rfl, rfl⟩ | ⟨rfl, rfl, rfl⟩ | ⟨rfl, rfl, rfl⟩ | ⟨rfl, rfl, rfl⟩ | ⟨rfl, rfl, rfl⟩ | ⟨rfl, rfl, rfl⟩ :=
      Machine.decode_command_cases h <;> exact ⟨rfl, rfl⟩
  | bit b => cases h; cases b <;> exact ⟨rfl, rfl⟩

/-! ### Legal node words (R92) -/

theorem decodeNode_of_int {w : NodeWord} (h : nodeOpcode w = 0b011000#6) :
    decodeNode w = .ok (.int (nodeLeft w) (nodeRight w) (nodeSym w)) := if_pos h

theorem decodeNode_of_leaf {w : NodeWord} (h : nodeOpcode w = 0b100000#6) :
    decodeNode w = .ok (.leaf (nodeLeft w) (nodeRight w) (nodeSym w)) := by
  rw [decodeNode, if_neg (by rw [h]; decide), if_pos h]

/-- Of the 64 opcodes the flag bits of `node_ok` single out the two of the opcode map. -/
theorem opcode_flags : ∀ op : BitVec 6,
    (op.extractLsb' 0 3 == 0#3 && (!op.getLsbD 5 && op.getLsbD 4 && op.getLsbD 3)) = decide (op = 0b011000#6) ∧
    (op.extractLsb' 0 3 == 0#3 && (op.getLsbD 5 && !op.getLsbD 4 && !op.getLsbD 3)) = decide (op = 0b100000#6) := by
  decide

/-- `node_ok` by the opcode: an `INT` with both children in the tree, or a `LEAF` (R92). -/
theorem nodeOk_iff (w : NodeWord) (n : NodeCount) : nodeOk w n = true ↔
    (nodeOpcode w = 0b011000#6 ∧ (nodeLeft w).toNat < n.toNat ∧ (nodeRight w).toNat < n.toNat) ∨
      nodeOpcode w = 0b100000#6 := by
  obtain ⟨hint, hleaf⟩ := opcode_flags (nodeOpcode w)
  rw [← decide_eq_true_iff (p := _ = 0b011000#6), ← decide_eq_true_iff (p := _ = 0b100000#6), ← hint, ← hleaf]
  simp only [nodeOk, nodeRSV_eq, nodeTag_eq, nodeLV_eq, nodeRV_eq, Bool.and_eq_true, Bool.or_eq_true, decide_eq_true_eq]
  tauto

/-! ### The table's numbering (log 7) -/

theorem itemOfTableWord_node {w : NodeWord} (h : nodeOpcode w = 0b011000#6 ∨ nodeOpcode w = 0b100000#6) :
    itemOfTableWord (itemTableWord (.node w)).1 (itemTableWord (.node w)).2 = .node w := by
  have haddr : w.toNat >>> 32 = 0 := by rw [Nat.shiftRight_eq_div_pow, Nat.div_eq_of_lt w.isLt]
  simp [itemOfTableWord, itemTableWord, haddr, h]

theorem itemOfTableWord_entry (y : Byte) (n : CodeLen) (c : CodeField) :
    itemOfTableWord (itemTableWord (.entry y n c)).1 (itemTableWord (.entry y n c)).2 = .entry y n c := by
  have hy := y.isLt
  have hn := n.isLt
  have hc := c.isLt
  simp only [itemOfTableWord, itemTableWord, Nat.reduceLeDiff, if_false, Item.entry.injEq]
  refine ⟨?_, ?_, ?_⟩ <;> apply BitVec.eq_of_toNat_eq <;>
    simp only [BitVec.toNat_ofNat, Nat.shiftRight_eq_div_pow] <;> omega

/-- The bits of every well-formed instruction's item are read back as that item. -/
theorem itemOfTableWord_encode (i : Instr) :
    itemOfTableWord (encodeTableWord i).1 (encodeTableWord i).2 = encode i := by
  cases i with
  | int l r y => exact itemOfTableWord_node (.inl (nodeOpcode_nodeWord _ l r y))
  | leaf l r y => exact itemOfTableWord_node (.inr (nodeOpcode_nodeWord _ l r y))
  | code y n c => exact itemOfTableWord_entry y n c
  | absent y c => exact itemOfTableWord_entry y 0 c
  | _ => decide

end Sys2Proof
end

section
/-! The obligations of 30_encoding.md. -/

namespace Sys2Proof

/-- Settles O1: `encode_of_decode` is one direction, `decode_encode` the other. -/
theorem decodeAndEncodeAgree : Obligations.DecodeAndEncodeAgree := by
  refine fun m i => ⟨encode_of_decode, ?_⟩
  rintro ⟨hw, rfl⟩
  exact decode_encode hw

/-- Settles O2: the bits are read back as the item, and the item decodes to the instruction. -/
theorem tableWordReadsBack : Obligations.TableWordReadsBack := by
  intro i hi
  rw [decodeTableWord, itemOfTableWord_encode, decode_encode hi]

/-- Settles O3: both sides say which of the two opcodes the word has. -/
theorem legalNodeWordsAreTheDecodableOnes : Obligations.LegalNodeWordsAreTheDecodableOnes := by
  intro w n
  rw [nodeOk_iff]
  refine or_congr ⟨?_, ?_⟩ ⟨fun h => ⟨_, _, _, decodeNode_of_leaf h⟩, ?_⟩
  · rintro ⟨h, hl, hr⟩
    exact ⟨_, _, _, decodeNode_of_int h, hl, hr⟩
  · rintro ⟨l, r, y, h, hl, hr⟩
    obtain ⟨rfl⟩ : nodeWord 0b011000#6 l r y = w := Item.node.inj (encode_of_decode h).2
    simp [hl, hr]
  · rintro ⟨l, r, y, h⟩
    obtain ⟨rfl⟩ : nodeWord 0b100000#6 l r y = w := Item.node.inj (encode_of_decode h).2
    simp

/-- Settles O4: the value of a node word in its fields. -/
theorem loadingNotationWords : Obligations.LoadingNotationWords := by
  intro l r y
  have hl := l.isLt; have hr := r.isLt; have hy := y.isLt
  constructor <;> refine congrArg Item.node (BitVec.eq_of_toNat_eq ?_) <;> rw [nodeWord_toNat, BitVec.toNat_ofNat]
  · simp
    omega
  · simp
    omega

/-- Settles O5: each item is a literal. -/
theorem wordsOfTheSpecDecode : Obligations.WordsOfTheSpecDecode := by
  unfold Obligations.WordsOfTheSpecDecode
  decide

end Sys2Proof
end

section
/-! SUPPORT. The invariant (10_state.md rule R53): what it asks in each control state, and each move of a unit keeps it. -/

namespace Sys2Proof.Machine

variable {d : Decoder} {p : Packer}

/-! ### The decoder's invariant, by control state -/

/-- What the decoder's invariant asks in every control state (R53 item 1, log 11). -/
structure Decoder.InRange (d : Decoder) : Prop where
  tmCanonical : Memory.wf Config.tmDepth d.tm = true
  countLegal : d.nnodes.toNat ≤ Config.tmDepth
  bitsLegal : d.bitcnt.toNat ≤ 8

theorem Decoder.Inv.of_idle (hs : d.state = .idle) (hr : d.InRange) (he : d.errcode = .noError ∧ d.errinfo = 0) :
    d.Inv :=
  ⟨hr.1, hr.2, hr.3, fun _ => he, by simp [hs], by simp [hs], by simp [hs], by simp [hs]⟩

theorem Decoder.Inv.of_validate (hs : d.state = .validate) (hr : d.InRange)
    (he : d.errcode = .noError ∧ d.errinfo = 0) (h : d.ScanInv) : d.Inv :=
  ⟨hr.1, hr.2, hr.3, fun _ => he, fun _ => h, by simp [hs], by simp [hs], by simp [hs]⟩

theorem Decoder.Inv.of_run (hs : d.state = .run) (hr : d.InRange)
    (he : d.errcode = .noError ∧ d.errinfo = 0) (h : d.RunInv) : d.Inv :=
  ⟨hr.1, hr.2, hr.3, fun _ => he, by simp [hs], fun _ => h, by simp [hs], by simp [hs]⟩

theorem Decoder.Inv.of_done (hs : d.state = .done) (hr : d.InRange) (he : d.errcode = .noError ∧ d.errinfo = 0)
    (h : d.mid = false ∧ d.bitcnt = 0 ∧ d.eos = true ∧ d.cur = d.root) : d.Inv :=
  ⟨hr.1, hr.2, hr.3, fun _ => he, by simp [hs], by simp [hs], fun _ => h, by simp [hs]⟩

theorem Decoder.Inv.of_error (hs : d.state = .error) (hr : d.InRange) (h : d.ErrorInv) : d.Inv :=
  ⟨hr.1, hr.2, hr.3, fun hn => absurd hs hn, by simp [hs], by simp [hs], by simp [hs], fun _ => h⟩

/-- In RUN and in VALIDATE there is no error. -/
theorem Decoder.Inv.noError_of_state (h : d.Inv) {st : DState} (hs : d.state = st) (hst : st ≠ .error) :
    d.errcode = .noError ∧ d.errinfo = 0 :=
  h.noErrorOutsideError (hs ▸ hst)

/-! ### The scan (R144) -/

/-- A legal word at `VPTR` moves the legal part of the tree up by one. -/
theorem Decoder.legal_of_lt_succ (h : ∀ i : NodeIdx, i.toNat < d.vptr.toNat → nodeOk (d.tmRead i) d.nnodes = true)
    (hok : nodeOk d.scanWord d.nnodes = true) (i : NodeIdx) (hi : i.toNat < d.vptr.toNat + 1) :
    nodeOk (d.tmRead i) d.nnodes = true := by
  obtain hlt | heq := Nat.lt_succ_iff_lt_or_eq.1 hi
  · exact h i hlt
  · rwa [BitVec.eq_of_toNat_eq heq]

theorem Decoder.vStep_inv (h : d.Inv) (hv : d.state = .validate) : d.vStep.Inv := by
  have hscan := h.inValidate hv
  have herr := h.noError_of_state hv (by decide)
  cases hok : nodeOk d.scanWord d.nnodes with
  | false =>
    rw [Decoder.vStep_of_illegal hv hok]
    exact .of_error rfl ⟨h.tmCanonical, h.countLegal, h.bitsLegal⟩ ⟨hscan.scanInTree, hok, hscan.scanned, hscan.noOutput⟩
  | true =>
    by_cases hl : d.vptr.toNat + 1 = d.nnodes.toNat
    · rw [Decoder.vStep_of_last hv hok hl]
      refine .of_run rfl ⟨h.tmCanonical, h.countLegal, h.bitsLegal⟩ herr
        ⟨fun i hi => Decoder.legal_of_lt_succ hscan.scanned hok i (hl ▸ hi), hscan.rootInTree, ?_, fun _ => hscan.atRoot⟩
      exact hscan.atRoot ▸ hscan.rootInTree
    · rw [Decoder.vStep_of_not_last hv hok hl]
      have hn := hscan.scanInTree
      have hcount : d.nnodes.toNat ≤ 512 := h.countLegal
      have hnext : (d.vptr + 1).toNat = d.vptr.toNat + 1 := by simp; omega
      refine .of_validate hv ⟨h.tmCanonical, h.countLegal, h.bitsLegal⟩ herr
        ⟨hscan.rootInTree, ?_, fun i hi => Decoder.legal_of_lt_succ hscan.scanned hok i (hnext ▸ hi), hscan.atRoot, hscan.notMid,
          hscan.noBits, hscan.noOutput⟩
      show (d.vptr + 1).toNat < d.nnodes.toNat
      omega

/-! ### The walk (R120 to R127) -/

/-- One bit fewer stays in range. -/
theorem bitcnt_pred_le {n : BitVec 4} (h0 : n ≠ 0) (h8 : n.toNat ≤ 8) : (n - 1).toNat ≤ 8 := by
  have : n.toNat ≠ 0 := fun h => h0 (BitVec.eq_of_toNat_eq h)
  simp
  omega

/-- Where no emit is pending in RUN, a Leaf at `CUR` and MID exclude each other (R120). -/
theorem Decoder.not_mid_and_curTag (hr : d.state = .run) (he : d.emitPending = false) :
    ¬(d.mid = true ∧ d.curTag = true) :=
  fun h => Bool.eq_false_iff.1 he (Decoder.emitPending_iff.2 ⟨hr, h⟩)

/-- A walk at a Leaf is one with nothing consumed: otherwise the Leaf would be emitted. -/
theorem Decoder.mid_eq_false_of_leaf (hw : d.walkEnabled = true) (ht : d.curTag = true) : d.mid = false := by
  obtain ⟨hr, he, -⟩ := Decoder.walkEnabled_iff.1 hw
  exact Bool.eq_false_iff.2 fun hm => Decoder.not_mid_and_curTag hr he ⟨hm, ht⟩

theorem Decoder.emit_inv (h : d.Inv) (hp : d.emitPending = true) (y : Byte) : (d.emit y).Inv := by
  have hr := (Decoder.emitPending_iff.1 hp).1
  obtain ⟨htree, hroot, -, -⟩ := h.inRun hr
  exact .of_run hr ⟨h.tmCanonical, h.countLegal, h.bitsLegal⟩ (h.noError_of_state hr (by decide))
    ⟨htree, hroot, hroot, fun _ => rfl⟩

theorem Decoder.descend_inv (h : d.Inv) (hw : d.walkEnabled = true) {c : NodeIdx}
    (hc : c.toNat < d.nnodes.toNat) : (d.descend c).Inv := by
  obtain ⟨hr, -, hb⟩ := Decoder.walkEnabled_iff.1 hw
  obtain ⟨htree, hroot, -, -⟩ := h.inRun hr
  exact .of_run hr ⟨h.tmCanonical, h.countLegal, bitcnt_pred_le hb h.bitsLegal⟩ (h.noError_of_state hr (by decide))
    ⟨htree, hroot, hc, fun hm => absurd hm Bool.noConfusion⟩

/-- Both children of an Internal node at `CUR` are nodes of the tree. -/
theorem Decoder.RunInv.child_inTree (h : d.RunInv) (ht : d.curTag = false) :
    (if d.nextBit then nodeRight d.curWord else nodeLeft d.curWord).toNat < d.nnodes.toNat := by
  obtain ⟨hl, hr⟩ := nodeOk_children (h.treeOk d.cur h.curInTree) ht
  split_ifs
  · exact hr
  · exact hl

theorem Decoder.walkAtLeaf_inv (h : d.Inv) (hw : d.walkEnabled = true) (ht : d.curTag = true) :
    (d.walkAtLeaf d.nextBit).Inv := by
  obtain ⟨hr, -, hb⟩ := Decoder.walkEnabled_iff.1 hw
  have hrun := h.inRun hr
  have hm := Decoder.mid_eq_false_of_leaf hw ht
  cases hbit : d.nextBit with
  | false =>
    exact .of_run hr ⟨h.tmCanonical, h.countLegal, bitcnt_pred_le hb h.bitsLegal⟩ (h.noError_of_state hr (by decide))
      ⟨hrun.treeOk, hrun.rootInTree, hrun.curInTree, fun hm => absurd hm Bool.noConfusion⟩
  | true =>
    exact .of_error rfl ⟨h.tmCanonical, h.countLegal, h.bitsLegal⟩ ⟨rfl, hrun.atRoot hm, ht, hm, hbit, hb⟩

theorem Decoder.finish_inv (h : d.Inv) (hf : d.endEnabled = true) : d.finish.Inv := by
  obtain ⟨hr, he, hb, hs⟩ := Decoder.endEnabled_iff.1 hf
  cases hm : d.mid with
  | false =>
    rw [Decoder.finish_of_not_mid hf hm]
    exact .of_done rfl ⟨h.tmCanonical, h.countLegal, h.bitsLegal⟩ (h.noError_of_state hr (by decide))
      ⟨hm, hb, hs, (h.inRun hr).atRoot hm⟩
  | true =>
    rw [Decoder.finish_of_mid hf hm]
    have ht : d.curTag = false := Bool.eq_false_iff.2 fun ht => Decoder.not_mid_and_curTag hr he ⟨hm, ht⟩
    exact .of_error rfl ⟨h.tmCanonical, h.countLegal, h.bitsLegal⟩ ⟨rfl, hb, hs, hm, ht⟩

/-! ### Starting a run, and the end of its input (R143, R147) -/

theorem Decoder.start_inv (h : d.Inv) (ht : d.noTree = false) : ({ d.initRun with state := .validate } : Decoder).Inv := by
  have hroot : d.root.toNat < d.nnodes.toNat := by
    have := mt Decoder.noTree_iff.2 (Bool.eq_false_iff.1 ht)
    omega
  exact .of_validate rfl ⟨h.tmCanonical, h.countLegal, Nat.zero_le 8⟩ ⟨rfl, rfl⟩
    ⟨hroot, Nat.zero_lt_of_lt hroot, fun i hi => absurd hi (Nat.not_lt_zero _), rfl, rfl, rfl, rfl⟩

theorem Decoder.eos_inv (h : d.Inv) (hs : d.state = .validate ∨ d.state = .run) :
    ({ d with eos := true } : Decoder).Inv := by
  obtain hs | hs := hs
  · have hscan := h.inValidate hs
    exact .of_validate hs ⟨h.tmCanonical, h.countLegal, h.bitsLegal⟩ (h.noError_of_state hs (by decide))
      ⟨hscan.rootInTree, hscan.scanInTree, hscan.scanned, hscan.atRoot, hscan.notMid, hscan.noBits, hscan.noOutput⟩
  · have hrun := h.inRun hs
    exact .of_run hs ⟨h.tmCanonical, h.countLegal, h.bitsLegal⟩ (h.noError_of_state hs (by decide))
      ⟨hrun.treeOk, hrun.rootInTree, hrun.curInTree, hrun.atRoot⟩

theorem Decoder.push_inv (h : d.Inv) (hi : d.inReady = true) (b : Byte) :
    ({ d with shreg := b, bitcnt := 8 } : Decoder).Inv := by
  have hr := (Decoder.inReady_iff.1 hi).1
  have hrun := h.inRun hr
  exact .of_run hr ⟨h.tmCanonical, h.countLegal, Nat.le_refl 8⟩ (h.noError_of_state hr (by decide))
    ⟨hrun.treeOk, hrun.rootInTree, hrun.curInTree, hrun.atRoot⟩

theorem Decoder.atReset_inv {tm : Memory NodeWord} (h : Memory.wf Config.tmDepth tm = true) :
    (Decoder.atReset tm).Inv :=
  .of_idle rfl ⟨h, Nat.zero_le _, Nat.zero_le 8⟩ ⟨rfl, rfl⟩

/-- Every move of the decoder keeps its invariant. -/
theorem Decoder.move_inv {a : Option Event} {d' : Decoder} (h : d.Inv) (m : DecoderMove a d d') : d'.Inv := by
  cases m with
  | stay => exact h
  | scan hv => exact Decoder.vStep_inv h hv
  | emit hp => exact Decoder.emit_inv h hp _
  | descend hw ht => exact Decoder.descend_inv h hw ((h.inRun (Decoder.walkEnabled_iff.1 hw).1).child_inTree ht)
  | leafBit hw ht => exact Decoder.walkAtLeaf_inv h hw ht
  | finish hf => exact Decoder.finish_inv h hf
  | push b hi _ => exact Decoder.push_inv h hi b
  | load i w hi _ =>
    exact .of_idle hi ⟨Decoder.wf_tmStore i w h.tmCanonical, h.countLegal, h.bitsLegal⟩ (h.noError_of_state hi (by decide))
  | count v hi hv =>
    refine .of_idle hi ⟨h.tmCanonical, ?_, h.bitsLegal⟩ (h.noError_of_state hi (by decide))
    exact (Nat.mod_le _ _).trans hv
  | rootSet v hi _ =>
    exact .of_idle hi ⟨h.tmCanonical, h.countLegal, h.bitsLegal⟩ (h.noError_of_state hi (by decide))
  | startNoTree _ ht _ => exact .of_error rfl ⟨h.tmCanonical, h.countLegal, Nat.zero_le 8⟩ ⟨rfl, ht, rfl⟩
  | start _ ht _ => exact Decoder.start_inv h ht
  | eos hs _ => exact Decoder.eos_inv h hs
  | clear _ _ => exact .of_idle rfl ⟨h.tmCanonical, h.countLegal, h.bitsLegal⟩ ⟨rfl, rfl⟩
  | rst _ => exact Decoder.atReset_inv h.tmCanonical

/-! ### The bitpacker's invariant -/

/-- A bit entered at the bottom leaves the bits above the byte's length 0 (R53 item 6). -/
theorem shiftIn_highZero {v : Byte} {n : BitVec 4} (hn : n.toNat < 8) (h : ∀ k, n.toNat ≤ k → v.getLsbD k = false)
    (b : Bool) (k : Nat) (hk : (n + 1).toNat ≤ k) : (shiftIn v b).getLsbD k = false := by
  have hs : (n + 1).toNat = n.toNat + 1 := by simp; omega
  rw [shiftIn_getLsbD, if_neg (by omega), h (k - 1) (by omega), Bool.and_false]

/-- In RUN and in IDLE the invariant asks the byte's bounds only. -/
theorem Packer.Inv.of_run_or_idle (hs : p.state = .run ∨ p.state = .idle)
    (hct : Memory.wf Config.ctDepth p.ct = true) (hl : p.acclen.toNat ≤ 8)
    (hz : ∀ k, p.acclen.toNat ≤ k → p.acc.getLsbD k = false) (he : p.errcode = .noError ∧ p.errinfo = 0) : p.Inv := by
  refine ⟨hct, hl, hz, fun _ => he, fun hd => ?_, fun he => ?_⟩
  · simp [hd] at hs
  · simp [he] at hs

theorem Packer.Inv.noError_of_state (h : p.Inv) {st : PState} (hs : p.state = st) (hst : st ≠ .error) :
    p.errcode = .noError ∧ p.errinfo = 0 :=
  h.noErrorOutsideError (hs ▸ hst)

/-- A bit appended to a byte with room, whatever becomes of the code in progress. -/
theorem Packer.appendBit_inv (h : p.Inv) (hr : p.state = .run) (hroom : p.acclen.toNat < 8) (b : Bool) (n : CodeLen) :
    ({ p.appendBit b with clen := n } : Packer).Inv := by
  have hs : (p.acclen + 1).toNat = p.acclen.toNat + 1 := by simp; omega
  refine .of_run_or_idle (.inl hr) h.ctCanonical ?_ (shiftIn_highZero hroom h.accHighZero b) (h.noError_of_state hr (by decide))
  show (p.acclen + 1).toNat ≤ 8
  omega

/-- No bit of the empty byte is set. -/
theorem zeroByte_highZero (k : Nat) (_ : (0#4).toNat ≤ k) : (0#8 : Byte).getLsbD k = false := BitVec.getLsbD_zero

theorem Packer.atReset_inv {ct : Memory CodeEntry} (h : Memory.wf Config.ctDepth ct = true) : (Packer.atReset ct).Inv :=
  .of_run_or_idle (.inr rfl) h (Nat.zero_le 8) zeroByte_highZero ⟨rfl, rfl⟩

/-- Every move of the bitpacker keeps its invariant. -/
theorem Packer.move_inv {a : Option Event} {p' : Packer} (h : p.Inv) (m : PackerMove a p p') : p'.Inv := by
  cases m with
  | stay => exact h
  | shift hs =>
    obtain ⟨hr, hroom, -⟩ := Packer.shiftEnabled_iff.1 hs
    exact Packer.appendBit_inv h hr hroom _ _
  | transfer ho =>
    have hr := (Packer.outEnabled_iff.1 ho).1
    exact .of_run_or_idle (.inl hr) h.ctCanonical (Nat.zero_le 8) zeroByte_highZero (h.noError_of_state hr (by decide))
  | pad hp =>
    obtain ⟨hr, hroom, -⟩ := Packer.padEnabled_iff.1 hp
    exact Packer.appendBit_inv h hr hroom false p.clen
  | finish hf =>
    obtain ⟨hr, ha, hc, hfl⟩ := Packer.finishEnabled_iff.1 hf
    exact ⟨h.ctCanonical, h.accLegal, h.accHighZero, fun _ => h.noError_of_state hr (by decide),
      fun _ => ⟨ha, hc, hfl⟩, fun he => absurd he PState.noConfusion⟩
  | code y hr _ _ =>
    have hr := (Packer.symReady_iff.1 hr).1
    exact .of_run_or_idle (.inl hr) h.ctCanonical h.accLegal h.accHighZero (h.noError_of_state hr (by decide))
  | unknown y hr hl _ =>
    obtain ⟨-, hc, hfl, hroom⟩ := Packer.symReady_iff.1 hr
    exact ⟨h.ctCanonical, h.accLegal, h.accHighZero, fun hn => absurd rfl hn, fun hd => absurd hd PState.noConfusion,
      fun _ => ⟨rfl, hl, hroom, hc, hfl⟩⟩
  | load y n c hi _ =>
    exact .of_run_or_idle (.inr hi) (Packer.wf_ctStore y n c h.ctCanonical) h.accLegal h.accHighZero (h.noError_of_state hi (by decide))
  | start _ _ => exact .of_run_or_idle (.inl rfl) h.ctCanonical (Nat.zero_le 8) zeroByte_highZero ⟨rfl, rfl⟩
  | flush hr _ => exact .of_run_or_idle (.inl hr) h.ctCanonical h.accLegal h.accHighZero (h.noError_of_state hr (by decide))
  | clear _ _ => exact .of_run_or_idle (.inr rfl) h.ctCanonical h.accLegal h.accHighZero ⟨rfl, rfl⟩
  | rst _ => exact Packer.atReset_inv h.ctCanonical

/-! ### What an error state says (R53 item 5) -/

/-- An error of the decoder has a code. -/
theorem Decoder.ErrorInv.errcode_ne (h : d.ErrorInv) : d.errcode ≠ .noError := by
  intro hn
  simp [Decoder.ErrorInv, hn] at h

theorem Decoder.Inv.error_iff (h : d.Inv) : d.state = .error ↔ d.errcode.bits ≠ 0 := by
  refine ⟨fun he hb => ?_, fun hb => ?_⟩
  · have hn := (h.inError he).errcode_ne
    revert hb hn
    cases d.errcode <;> decide
  · by_contra hs
    exact hb (by rw [(h.noErrorOutsideError hs).1]; rfl)

theorem Packer.Inv.error_iff (h : p.Inv) : p.state = .error ↔ p.errcode.bits ≠ 0 := by
  refine ⟨fun he => ?_, fun hb => ?_⟩
  · rw [(h.inError he).1]
    decide
  · by_contra hs
    exact hb (by rw [(h.noErrorOutsideError hs).1]; rfl)

/-- The numbers of the states taken (R53 item 7). -/
theorem DState.bits_le (st : DState) : st.bits.toNat ≤ 4 := by cases st <;> decide

theorem PState.bits_legal (st : PState) : st.bits.toNat ≤ 4 ∧ st.bits ≠ 1 := by cases st <;> decide

end Sys2Proof.Machine
end

section
/-! The obligations about the invariant. -/

namespace Sys2Proof.Machine

/-- Settles O48: a step is a move of each unit, and every move keeps that unit's invariant. -/
theorem invIsKeptByEveryStep : Obligations.InvIsKeptByEveryStep :=
  fun _ _ hi h => ⟨Decoder.move_inv hi.dec (step_cases h).dec, Packer.move_inv hi.pack (step_cases h).pack⟩

/-- Settles O49: both units are in their reset state, around empty memories. -/
theorem invHoldsAfterReset : Obligations.InvHoldsAfterReset :=
  ⟨Decoder.atReset_inv (Memory.wf_nil _), Packer.atReset_inv (Memory.wf_nil _)⟩

/-- Settles O50: items 2 to 4 are the walk's invariant, items 1 and 6 are clauses of the invariant, and items 5 and 7 go by cases of
the code and of the state. -/
theorem invGivesTheSevenItems : Obligations.InvGivesTheSevenItems := by
  intro s h
  refine ⟨⟨h.dec.bitsLegal, h.pack.accLegal, h.dec.countLegal⟩, fun hr => (h.dec.inRun hr).atRoot, fun hr => ?_,
    fun hr ht hm => ?_, ⟨h.dec.error_iff, h.pack.error_iff⟩, fun _ => h.pack.accHighZero,
    ⟨s.dec.state.bits_le, s.pack.state.bits_legal⟩⟩
  · have hrun := h.dec.inRun hr
    exact ⟨hrun.curInTree, hrun.treeOk _ hrun.curInTree⟩
  · have hroot := (h.dec.inRun hr).atRoot hm
    exact ⟨hroot, hroot ▸ ht⟩

end Sys2Proof.Machine
end

section
/-! SUPPORT. The walk of R131 case by case, and the result a decoder's run will have: no step of the decoder in RUN changes it. -/

namespace Sys2Proof.Reference

open Sys2Proof.Machine

variable {T : Arena} {r cur : NodeIdx} {mid : Bool} {bits : List Bool} {out : List Byte}

/-! ### The recursion of the walk (R131) -/

/-- A pending emission comes first. -/
theorem walk_of_pending (h : mid = true ∧ nodeTag (T cur) = true) :
    walk T r cur mid bits out = walk T r r false bits (out ++ [nodeSym (T cur)]) := by
  obtain ⟨rfl, ht⟩ := h
  cases bits <;> simp [walk, settledAt, settledOut, ht]

/-- With nothing pending the walk stands where it is. -/
theorem settled_of_not_pending (h : ¬(mid = true ∧ nodeTag (T cur) = true)) :
    settledAt T r cur mid = cur ∧ settledOut T cur mid out = out := ⟨if_neg h, if_neg h⟩

/-- The end of the bits: at the root the run is done, inside a code it is corrupt. -/
theorem walk_nil (h : ¬(mid = true ∧ nodeTag (T cur) = true)) :
    walk T r cur mid [] out = (out, if mid then .error .streamCorruption cur else .done) := by
  obtain ⟨-, ho⟩ := settled_of_not_pending (r := r) (out := out) h
  cases mid with
  | false => simp [walk, ho]
  | true => simp [walk, ho, show nodeTag (T cur) = false from by simpa using h]

/-- A bit at an Internal node selects a child. An Internal node has nothing pending. -/
theorem walk_internal (ht : nodeTag (T cur) = false) (b : Bool) :
    walk T r cur mid (b :: bits) out = walk T r (if b then nodeRight (T cur) else nodeLeft (T cur)) true bits out := by
  obtain ⟨ha, ho⟩ := settled_of_not_pending (T := T) (r := r) (cur := cur) (mid := mid) (out := out) (by simp [ht])
  simp [walk, ha, ho, ht]

/-- The bit 0 at a Leaf with nothing pending is the code of its symbol. -/
theorem walk_leaf_false (ht : nodeTag (T cur) = true) :
    walk T r cur false (false :: bits) out = walk T r cur true bits out := by
  simp [walk, settledAt, settledOut, ht]

/-- The bit 1 at a Leaf with nothing pending is a mismatch. -/
theorem walk_leaf_true (ht : nodeTag (T cur) = true) :
    walk T r cur false (true :: bits) out = (out, .error .treeMismatch cur) := by
  simp [walk, settledAt, settledOut, ht]

end Sys2Proof.Reference

namespace Sys2Proof.Machine

open Sys2Proof.Reference

variable {d : Decoder} {s : State} {bytes : List Byte}

/-! ### The result of a run (R131) -/

/-- The stream of an enabled walk begins with the next bit. -/
theorem runResult_of_walkEnabled (hw : d.walkEnabled = true) (h8 : d.bitcnt.toNat ≤ 8) :
    runResult d bytes = walk d.tmRead d.root d.cur d.mid
      (d.nextBit :: (pendingBits d.consumeBit ++ bytes.flatMap streamBits)) d.out := by
  rw [runResult, pendingBits_eq_cons (Decoder.walkEnabled_iff.1 hw).2.2 h8]
  rfl

theorem runResult_emit (he : d.emitPending = true) :
    runResult (d.emit (nodeSym d.curWord)) bytes = runResult d bytes :=
  (walk_of_pending (Decoder.emitPending_iff.1 he).2).symm

theorem runResult_descend (hw : d.walkEnabled = true) (ht : d.curTag = false) (h8 : d.bitcnt.toNat ≤ 8) :
    runResult (d.descend (if d.nextBit then nodeRight d.curWord else nodeLeft d.curWord)) bytes = runResult d bytes := by
  rw [runResult_of_walkEnabled hw h8, walk_internal ht]
  rfl

theorem runResult_consumeBit (hw : d.walkEnabled = true) (ht : d.curTag = true) (hb : d.nextBit = false)
    (h8 : d.bitcnt.toNat ≤ 8) : runResult d.consumeBit bytes = runResult d bytes := by
  rw [runResult_of_walkEnabled hw h8, hb, Decoder.mid_eq_false_of_leaf hw ht, walk_leaf_false ht]
  rfl

/-- The mismatch ends the run, whatever bytes would follow. -/
theorem runResult_of_mismatch (hw : d.walkEnabled = true) (ht : d.curTag = true) (hb : d.nextBit = true)
    (h8 : d.bitcnt.toNat ≤ 8) : runResult d bytes = (d.out, .error .treeMismatch d.cur) := by
  rw [runResult_of_walkEnabled hw h8, hb, Decoder.mid_eq_false_of_leaf hw ht, walk_leaf_true ht]

theorem pendingBits_of_noBit (hc : d.bitcnt = 0) : pendingBits d = [] := by simp [pendingBits, hc]

/-- With no bit and no byte left the run has the end that `D_END` gives it. -/
theorem runResult_of_endEnabled (hf : d.endEnabled = true) :
    runResult d [] = (d.out, if d.mid then .error .streamCorruption d.cur else .done) := by
  obtain ⟨hr, he, hc, -⟩ := Decoder.endEnabled_iff.1 hf
  rw [runResult, pendingBits_of_noBit hc]
  exact walk_nil (Decoder.not_mid_and_curTag hr he)

theorem Decoder.inPush_of_inReady (hi : d.inReady = true) (b : Byte) :
    d.inPush b = { d with shreg := b, bitcnt := 8 } := if_pos hi

/-- An accepted byte is the first of those still to come (R128). -/
theorem runResult_inPush (hi : d.inReady = true) (b : Byte) :
    runResult (d.inPush b) bytes = runResult d (b :: bytes) := by
  have hall : pendingBits { d with shreg := b, bitcnt := 8 } = streamBits b := List.take_of_length_le (by simp)
  rw [Decoder.inPush_of_inReady hi, runResult, hall, runResult,
    pendingBits_of_noBit (Decoder.inReady_iff.1 hi).2.2.1, List.flatMap_cons, List.nil_append]
  rfl

/-! ### The steps of the decoder in RUN -/

/-- The decoder's own steps in RUN: those of its moves that R120 enables. -/
inductive RunStep (d : Decoder) : Decoder → Prop where
  | emit (h : d.emitPending = true) : RunStep d (d.emit (nodeSym d.curWord))
  | descend (hw : d.walkEnabled = true) (ht : d.curTag = false) :
      RunStep d (d.descend (if d.nextBit then nodeRight d.curWord else nodeLeft d.curWord))
  | leafBit (hw : d.walkEnabled = true) (ht : d.curTag = true) : RunStep d (d.walkAtLeaf d.nextBit)
  | finish (h : d.endEnabled = true) : RunStep d d.finish

/-- In RUN the decoder waits, or it makes one of its steps there. -/
theorem decoderStep_of_run (hr : s.dec.state = .run) :
    (s.dec.canStep s.host.outReady = false ∧ decoderStep s = .next s) ∨
      ∃ d', RunStep s.dec d' ∧ decoderStep s = .next { s with dec := d' } := by
  by_cases he : s.dec.emitPending = true
  · cases ho : s.host.outReady with
    | true =>
      refine .inr ⟨_, .emit he, ?_⟩
      rw [decoderStep_of_emitPending he ho, Decoder.fetchNode_of_leaf (Decoder.emitPending_iff.1 he).2.2,
        exec_leaf_of_emitPending he]
    | false =>
      refine .inl ⟨?_, decoderStep_of_emitPending_waiting he ho⟩
      simp [Decoder.canStep, Decoder.walkEnabled, Decoder.endEnabled, he, hr]
  · have he := Bool.eq_false_iff.2 he
    by_cases hc : s.dec.bitcnt = 0
    · cases hs : s.dec.eos with
      | true =>
        exact .inr ⟨_, .finish (Decoder.endEnabled_iff.2 ⟨hr, he, hc, hs⟩), decoderStep_of_noBit hr he hc⟩
      | false =>
        have hi := Decoder.inReady_iff.2 ⟨hr, he, hc, hs⟩
        exact .inl ⟨Decoder.canStep_of_inReady hi _, decoderStep_of_inReady hi⟩
    · have hw := Decoder.walkEnabled_iff.2 ⟨hr, he, hc⟩
      rw [decoderStep_of_walkEnabled hw]
      cases ht : s.dec.curTag with
      | false => exact .inr ⟨_, .descend hw ht, exec_fetchNode_of_internal hw ht⟩
      | true => exact .inr ⟨_, .leafBit hw ht, exec_fetchNode_of_leaf hw ht⟩

/-- `d` has ended its run with the result `r`: the output and the end. A corrupt stream ends inside a code (R127). -/
structure EndsWith (d : Decoder) (r : List Byte × RunEnd) : Prop where
  out : r.1 = d.out
  shows : Shows d r.2
  corrupt : d.errcode = .streamCorruption → d.state = .error → d.mid = true

/-- At most so many steps the decoder makes before it needs a byte or ends: for each bit its walk and an emission, and the emission
pending now. -/
def stepsLeft (d : Decoder) : Nat := 2 * d.bitcnt.toNat + if d.emitPending then 1 else 0

/-- The run goes on from `d` to `d'`: with the same result, and with fewer steps left. -/
structure GoesOn (d d' : Decoder) : Prop where
  running : d'.state = .run
  bitsLegal : d'.bitcnt.toNat ≤ 8
  eos : d'.eos = d.eos
  less : stepsLeft d' < stepsLeft d
  result : ∀ bytes, runResult d' bytes = runResult d bytes

/-- A step that consumes a bit has fewer steps left, even if it makes an emission pending. -/
theorem stepsLeft_of_consumed {d' : Decoder} (hw : d.walkEnabled = true) (hb : d'.bitcnt = d.bitcnt - 1) :
    stepsLeft d' < stepsLeft d := by
  obtain ⟨-, he, hc⟩ := Decoder.walkEnabled_iff.1 hw
  have hc : d.bitcnt.toNat ≠ 0 := fun h => hc (BitVec.eq_of_toNat_eq h)
  have hpred : (d.bitcnt - 1).toNat = d.bitcnt.toNat - 1 := by simp; omega
  simp only [stepsLeft, hb, hpred, he]
  split_ifs <;> simp <;> omega

/-- What a step in RUN makes of the run: it goes on, or it has ended with its result, which only a mismatch does while there may be bytes
to come. -/
theorem RunStep.cases_of_result {d' : Decoder} (m : RunStep d d') (h8 : d.bitcnt.toNat ≤ 8) :
    GoesOn d d' ∨
    (d'.state = .error ∧ d'.errcode = .treeMismatch ∧ ∀ bytes, EndsWith d' (runResult d bytes)) ∨
    (d.eos = true ∧ d'.state ≠ .run ∧ ¬(d'.state = .error ∧ d'.errcode = .treeMismatch) ∧
      EndsWith d' (runResult d [])) := by
  cases m with
  | emit he =>
    refine .inl ⟨(Decoder.emitPending_iff.1 he).1, h8, rfl, ?_, fun _ => runResult_emit he⟩
    simp [stepsLeft, he, Decoder.emitPending_of_not_mid (d.emit_mid _)]
  | descend hw ht =>
    obtain ⟨hr, -, hc⟩ := Decoder.walkEnabled_iff.1 hw
    exact .inl ⟨hr, bitcnt_pred_le hc h8, rfl, stepsLeft_of_consumed hw rfl, fun _ => runResult_descend hw ht h8⟩
  | leafBit hw ht =>
    cases hb : d.nextBit with
    | false =>
      obtain ⟨hr, -, hc⟩ := Decoder.walkEnabled_iff.1 hw
      exact .inl ⟨hr, bitcnt_pred_le hc h8, rfl, stepsLeft_of_consumed hw rfl,
        fun _ => runResult_consumeBit hw ht hb h8⟩
    | true =>
      refine .inr (.inl ⟨rfl, rfl, fun _ => ?_⟩)
      rw [runResult_of_mismatch hw ht hb h8]
      exact ⟨rfl, ⟨rfl, rfl, rfl⟩, fun h => absurd h DError.noConfusion⟩
  | finish hf =>
    refine .inr (.inr ⟨(Decoder.endEnabled_iff.1 hf).2.2.2, ?_⟩)
    rw [runResult_of_endEnabled hf]
    cases hm : d.mid with
    | false =>
      rw [Decoder.finish_of_not_mid hf hm]
      exact ⟨DState.noConfusion, fun h => absurd h.1 DState.noConfusion, rfl, rfl, fun _ h => absurd h DState.noConfusion⟩
    | true =>
      rw [Decoder.finish_of_mid hf hm]
      exact ⟨DState.noConfusion, fun h => absurd h.2 DError.noConfusion, rfl, ⟨rfl, rfl, rfl⟩, fun _ _ => hm⟩

end Sys2Proof.Machine
end

section
/-! The obligations about the walk and its result. -/

namespace Sys2Proof.Machine

open Sys2Proof.Reference

/-- Settles O54: the walk's own cases. -/
theorem walkFollowsItsRecursion : Obligations.WalkFollowsItsRecursion := by
  intro T r cur mid bits out
  refine ⟨walk_of_pending, fun hp => ⟨fun hb => hb ▸ walk_nil hp, ?_⟩⟩
  rintro b rest rfl
  have hmid (ht : nodeTag (T cur) = true) : mid = false := Bool.eq_false_iff.2 fun hm => hp ⟨hm, ht⟩
  refine ⟨fun ht => ?_, fun ht hb => ?_, fun ht hb => ?_⟩
  · rw [walk_internal ht]
    cases b <;> rfl
  · rw [hmid ht, hb, walk_leaf_false ht]
  · rw [hmid ht, hb, walk_leaf_true ht]

/-- Settles O55: in RUN the decoder waits or makes one of its steps, and an accepted byte goes from the bytes still to come to the bits not
yet consumed. -/
theorem decoderStepsKeepTheRunsResult : Obligations.DecoderStepsKeepTheRunsResult := by
  intro s s' hr h8
  refine ⟨fun h bytes => ?_, fun b bytes hi => runResult_inPush hi b⟩
  obtain ⟨-, hstay⟩ | ⟨d', hm, hstep⟩ := decoderStep_of_run hr
  · obtain rfl : s = s' := Host.Outcome.next.inj (hstay.symm.trans h)
    exact ⟨fun _ => rfl, fun hn => absurd hr hn⟩
  · obtain rfl : _ = s' := Host.Outcome.next.inj (hstep.symm.trans h)
    obtain hgo | ⟨hs, -, hend⟩ | ⟨-, hs, he, hend⟩ := hm.cases_of_result h8
    · exact ⟨fun _ => hgo.result bytes, fun hn => absurd hgo.running hn⟩
    · exact ⟨fun hrun => by simp [hs] at hrun, fun _ _ => ⟨_, Prod.ext (hend bytes).out rfl, (hend bytes).shows⟩⟩
    · refine ⟨fun hrun => absurd hrun hs, fun _ hb => ?_⟩
      obtain rfl := hb.resolve_right he
      exact ⟨_, Prod.ext hend.out rfl, hend.shows⟩

end Sys2Proof.Machine
end

section
/-! SUPPORT. Whole runs of the decoder (R131, R145): a scan to its end, and a run fed with bytes and then `D_EOS`. -/

namespace Sys2Proof.Machine

open Sys2Proof.Reference

variable {d : Decoder} {s : State} {bytes : List Byte}

/-- With no act of the host the step is a unit's own (log 4). -/
theorem step_of_noAct (ha : s.host.agenda = []) : step s = unitsStep s := by simp [step, advance, ha]

/-- A decoder that can step comes first (log 4). -/
theorem unitsStep_of_canStep (hc : s.dec.canStep s.host.outReady = true) : unitsStep s = decoderStep s := by
  simp [unitsStep, hc]

/-! ### The scan (R144, R145) -/

/-- How a scan ends: every word of the tree is legal, or the first illegal one is found. -/
inductive ScanEnds (d : Decoder) : Decoder → Prop
  | legal (v : NodeIdx) (hall : ∀ i : NodeIdx, i.toNat < d.nnodes.toNat → nodeOk (d.tmRead i) d.nnodes = true) :
      ScanEnds d { d with vptr := v, state := .run }
  | illegal (v : NodeIdx) (hv : v.toNat < d.nnodes.toNat) (hbad : nodeOk (d.tmRead v) d.nnodes = false)
      (hleast : ∀ i : NodeIdx, i.toNat < v.toNat → nodeOk (d.tmRead i) d.nnodes = true) :
      ScanEnds d ({ d with vptr := v }.raise .malformedTree v)

/-- While the host waits, the scan runs to its end, a step for each entry. -/
theorem scan_run (s : State) (hs : s.dec.state = .validate)
    (hwait : ∀ t : State, t.dec.state = .validate → t.host = s.host → step t = unitsStep t)
    (hn : s.dec.nnodes.toNat ≤ 512) (hv : s.dec.vptr.toNat < s.dec.nnodes.toNat)
    (hscanned : ∀ i : NodeIdx, i.toNat < s.dec.vptr.toNat → nodeOk (s.dec.tmRead i) s.dec.nnodes = true) :
    ∃ k d', k + s.dec.vptr.toNat ≤ s.dec.nnodes.toNat ∧ ScanEnds s.dec d' ∧
      core.run k s = .next { s with dec := d' } := by
  have hstep : step s = .next { s with dec := s.dec.vStep } := by
    rw [hwait s hs rfl, unitsStep_of_canStep (by simp [Decoder.canStep, hs]), decoderStep_of_validate hs]
  cases hok : nodeOk s.dec.scanWord s.dec.nnodes with
  | false =>
    rw [Decoder.vStep_of_illegal hs hok] at hstep
    exact ⟨1, _, by omega, .illegal s.dec.vptr hv hok hscanned, core_run_succ hstep rfl⟩
  | true =>
    have hall := Decoder.legal_of_lt_succ hscanned hok
    by_cases hl : s.dec.vptr.toNat + 1 = s.dec.nnodes.toNat
    · rw [Decoder.vStep_of_last hs hok hl] at hstep
      exact ⟨1, _, by omega, .legal s.dec.vptr fun i hi => hall i (hl ▸ hi), core_run_succ hstep rfl⟩
    · rw [Decoder.vStep_of_not_last hs hok hl] at hstep
      have hnext : (s.dec.vptr + 1).toNat = s.dec.vptr.toNat + 1 := by simp; omega
      obtain ⟨k, d', hk, hend, hrun⟩ := scan_run { s with dec := { s.dec with vptr := s.dec.vptr + 1 } } hs hwait hn
        (by show (s.dec.vptr + 1).toNat < s.dec.nnodes.toNat; omega) fun i hi => hall i (hnext ▸ hi)
      replace hk : k + (s.dec.vptr + 1).toNat ≤ s.dec.nnodes.toNat := hk
      refine ⟨k + 1, d', by omega, ?_, core_run_succ hstep hrun⟩
      cases hend with
      | legal v hall => exact .legal v hall
      | illegal v hv hbad hleast => exact .illegal v hv hbad hleast
  termination_by s.dec.nnodes.toNat - s.dec.vptr.toNat
  decreasing_by rw [hnext]; omega

/-! ### The least illegal entry (R145) -/

theorem leastIllegal_of_legal {T : Arena} {n : NodeCount}
    (h : ∀ i : NodeIdx, i.toNat < n.toNat → nodeOk (T i) n = true) : leastIllegal T n = none := by
  refine List.find?_eq_none.2 fun i hi => ?_
  rw [h (BitVec.ofNat 9 i) ((Nat.mod_le _ _).trans_lt (List.mem_range.1 hi))]
  decide

theorem leastIllegal_of_illegal {T : Arena} {n : NodeCount} {v : NodeIdx} (hv : v.toNat < n.toNat)
    (hbad : nodeOk (T v) n = false) (hleast : ∀ i : NodeIdx, i.toNat < v.toNat → nodeOk (T i) n = true) :
    leastIllegal T n = some v.toNat := by
  refine List.find?_range_eq_some.2 ⟨by simp [hbad], List.mem_range.2 hv, fun j hj => ?_⟩
  rw [hleast (BitVec.ofNat 9 j) ((Nat.mod_le _ _).trans_lt hj)]
  decide

/-! ### A run fed with bytes -/

/-- What the host still gives the run of `s`: the bytes and then `D_EOS`, or nothing after `D_EOS` (R151). -/
def Feeds (s : State) (bytes : List Byte) : Prop :=
  (s.dec.eos = false ∧ s.host.agenda = bytes.map .inPush ++ [.regWrite 0x0#4 2#32]) ∨
    (s.dec.eos = true ∧ s.host.agenda = [] ∧ bytes = [])

/-- A decoder in RUN, its output drained, with the bytes `bytes` still to come. -/
structure Fed (s : State) (bytes : List Byte) : Prop where
  running : s.dec.state = .run
  bitsLegal : s.dec.bitcnt.toNat ≤ 8
  drained : s.host.outReady = true
  feeds : Feeds s bytes

/-- At most so many steps a fed run takes to its end: for each byte its push and 16 of the decoder, then `D_EOS` and `D_END`. -/
def fedSteps (d : Decoder) (bytes : List Byte) : Nat :=
  17 * bytes.length + stepsLeft d + if d.eos then 1 else 2

/-- A step of a fed run: the run goes on with the same result and fewer steps to come, or it has ended with its result. -/
def FedStep (s s' : State) (bytes : List Byte) : Prop :=
  s'.pack = s.pack ∧
    ((∃ bytes', Fed s' bytes' ∧ runResult s'.dec bytes' = runResult s.dec bytes ∧
        fedSteps s'.dec bytes' < fedSteps s.dec bytes) ∨
      EndsWith s'.dec (runResult s.dec bytes))

/-- In RUN a drained decoder that is not ready for a byte has a step. -/
theorem Decoder.canStep_of_not_inReady (hr : d.state = .run) (hi : d.inReady = false) : d.canStep true = true := by
  cases he : d.emitPending with
  | true => simp [Decoder.canStep, he]
  | false =>
    by_cases hc : d.bitcnt = 0
    · have hs : d.eos = true := by
        by_contra hs
        exact Bool.eq_false_iff.1 hi (Decoder.inReady_iff.2 ⟨hr, he, hc, Bool.eq_false_iff.2 hs⟩)
      simp [Decoder.canStep, Decoder.endEnabled_iff.2 ⟨hr, he, hc, hs⟩]
    · simp [Decoder.canStep, Decoder.walkEnabled_iff.2 ⟨hr, he, hc⟩]

/-- The decoder's own step in a fed run. -/
theorem fed_ownStep (h : Fed s bytes) (hi : s.dec.inReady = false) (hstep : step s = unitsStep s) :
    ∃ s', step s = .next s' ∧ FedStep s s' bytes := by
  have hcan : s.dec.canStep s.host.outReady = true :=
    h.drained ▸ Decoder.canStep_of_not_inReady h.running hi
  obtain ⟨hno, -⟩ | ⟨d', hm, hd⟩ := decoderStep_of_run h.running
  · exact absurd (hcan.symm.trans hno) (by decide)
  · rw [← unitsStep_of_canStep hcan, ← hstep] at hd
    refine ⟨_, hd, rfl, ?_⟩
    obtain hgo | ⟨-, -, hend⟩ | ⟨hs, -, -, hend⟩ := hm.cases_of_result h.bitsLegal
    · refine .inl ⟨bytes, ⟨hgo.running, hgo.bitsLegal, h.drained, ?_⟩, hgo.result bytes, ?_⟩
      · exact h.feeds.imp (And.imp_left hgo.eos.trans) (And.imp_left hgo.eos.trans)
      · have := hgo.less
        simp only [fedSteps, hgo.eos]
        omega
    · exact .inr (hend bytes)
    · obtain ⟨hs', -⟩ | ⟨-, -, rfl⟩ := h.feeds
      · exact absurd (hs.symm.trans hs') (by decide)
      · exact .inr hend

/-- The host's push of the next byte, accepted. -/
theorem fed_push {b : Byte} {rest : List Byte} (h : Fed s (b :: rest)) (hi : s.dec.inReady = true)
    (ha : s.host.agenda = (b :: rest).map .inPush ++ [.regWrite 0x0#4 2#32]) :
    ∃ s', step s = .next s' ∧ FedStep s s' (b :: rest) := by
  obtain ⟨-, he, hc, hs⟩ := Decoder.inReady_iff.1 hi
  have hstep := step_of_agenda_cons ha (by simp [blocked, hi])
  refine ⟨_, hstep, rfl, .inl ⟨rest, ⟨?_, ?_, h.drained, .inl ⟨?_, rfl⟩⟩, runResult_inPush hi b, ?_⟩⟩
  all_goals simp only [State.mapDec_dec, State.withAgenda_dec, Decoder.inPush_of_inReady hi]
  · exact h.running
  · decide
  · exact hs
  · have he' : ({ s.dec with shreg := b, bitcnt := 8 } : Decoder).emitPending = false := he
    simp only [fedSteps, stepsLeft, he, he', hc, List.length_cons]
    simp
    omega

/-- The host's `D_EOS` after the last byte. -/
theorem fed_eos (h : Fed s []) (hs : s.dec.eos = false) (ha : s.host.agenda = [.regWrite 0x0#4 2#32]) :
    ∃ s', step s = .next s' ∧ FedStep s s' [] := by
  have hstep : step s = exec .dEos (s.withAgenda []) := by
    rw [step_of_agenda_cons ha rfl, perform_regWrite_of_decode rfl]
  rw [exec_dEos_of_running (s := s.withAgenda []) (.inr h.running)] at hstep
  refine ⟨_, hstep, rfl, .inl ⟨[], ⟨h.running, h.bitsLegal, h.drained, .inr ⟨rfl, rfl, rfl⟩⟩, rfl, ?_⟩⟩
  have hsame : stepsLeft { s.dec with eos := true } = stepsLeft s.dec := rfl
  simp [fedSteps, hs, hsame]

/-- Every step of a fed run is one of the decoder, an accepted byte, or `D_EOS`. -/
theorem fed_step (h : Fed s bytes) : ∃ s', step s = .next s' ∧ FedStep s s' bytes := by
  obtain ⟨hs, ha⟩ | ⟨hs, ha, rfl⟩ := h.feeds
  · cases bytes with
    | nil => exact fed_eos h hs ha
    | cons b rest =>
      cases hi : s.dec.inReady with
      | true => exact fed_push h hi ha
      | false => exact fed_ownStep h hi (step_of_blocked ha (by simp [blocked, hi]))
  · have hi : s.dec.inReady = false := by simp [Decoder.inReady, hs]
    exact fed_ownStep h hi (step_of_noAct ha)

/-- A fed run ends with its result. -/
theorem fed_run {s : State} {bytes : List Byte} (h : Fed s bytes) :
    ∃ k, ∃ s' : State, k ≤ fedSteps s.dec bytes ∧ core.run k s = .next s' ∧ s'.pack = s.pack ∧
      EndsWith s'.dec (runResult s.dec bytes) := by
  obtain ⟨t, hstep, hp, hnext | hend⟩ := fed_step h
  · obtain ⟨bytes', hfed, hres, hless⟩ := hnext
    obtain ⟨k, s', hk, hrun, hp', hend⟩ := fed_run hfed
    exact ⟨k + 1, s', by omega, core_run_succ hstep hrun, hp'.trans hp, hres ▸ hend⟩
  · refine ⟨1, t, ?_, core_run_succ hstep rfl, hp, hend⟩
    rw [fedSteps]
    split_ifs <;> omega
  termination_by fedSteps s.dec bytes

/-- A run at the root with nothing consumed decodes its bytes (R131). -/
theorem runResult_of_start (hc : d.cur = d.root) (hm : d.mid = false) (hb : d.bitcnt = 0) (ho : d.out = []) :
    runResult d bytes = decodeBits d.tmRead d.root (bytes.flatMap streamBits) := by
  rw [runResult, pendingBits_of_noBit hb, hc, hm, ho, List.nil_append, decodeBits]

end Sys2Proof.Machine
end

section
/-! The obligations about whole runs of the decoder. -/

namespace Sys2Proof.Machine

open Sys2Proof.Reference

/-- Settles O56: the run is fed with its bytes, and at the root its result is that of `decode_bits`. -/
theorem decoderRunIsTheWalk : Obligations.DecoderRunIsTheWalk := by
  intro s bytes hr hc hm hb hs ho hd ha
  obtain ⟨k, s', hk, hrun, hp, hend⟩ := fed_run (s := s) (bytes := bytes) ⟨hr, by simp [hb], hd, .inl ⟨hs, ha⟩⟩
  rw [runResult_of_start hc hm hb ho] at hend
  refine ⟨k, s', ?_, hrun, hp, hend.out.symm, hend.shows⟩
  simpa [fedSteps, stepsLeft, hb, hs, Decoder.emitPending_of_not_mid hm] using hk

/-- Settles O18: `D_START` raises NoTree or begins the scan, which runs to its end. -/
theorem validationFindsTheLeastIllegalEntry : Obligations.ValidationFindsTheLeastIllegalEntry := by
  intro s hi hn ha
  have hstart : step s = exec .dStart (s.withAgenda []) := by
    rw [step_of_agenda_cons ha rfl, perform_regWrite_of_decode rfl]
  simp only [← Decoder.noTree_iff]
  cases ht : s.dec.noTree with
  | true =>
    rw [exec_dStart_of_noTree (s := s.withAgenda []) hi ht] at hstart
    exact ⟨1, _, by omega, core_run_succ hstart rfl, rfl, rfl, rfl, rfl, rfl, rfl, rfl, rfl, rfl⟩
  | false =>
    rw [exec_dStart_of_tree (s := s.withAgenda []) hi ht] at hstart
    have hroot := mt Decoder.noTree_iff.2 (Bool.eq_false_iff.1 ht)
    obtain ⟨k, d', hk, hend, hrun⟩ := scan_run
      { s.withAgenda [] with dec := { s.dec.initRun with state := .validate } } rfl
      (fun t _ hh => step_of_noAct (by rw [hh]; rfl)) hn (by show 0 < s.dec.nnodes.toNat; omega)
      (fun i h => absurd h (Nat.not_lt_zero _))
    refine ⟨k + 1, _, Nat.succ_le_succ hk, core_run_succ hstart hrun, rfl, ?_⟩
    cases hend with
    | legal v hall =>
      have hnone : leastIllegal s.dec.tmRead s.dec.nnodes = none := leastIllegal_of_legal hall
      rw [hnone]
      exact ⟨rfl, rfl, rfl, rfl, rfl, rfl, rfl, rfl, rfl⟩
    | illegal v hv hbad hleast =>
      have hsome : leastIllegal s.dec.tmRead s.dec.nnodes = some v.toNat := leastIllegal_of_illegal hv hbad hleast
      rw [hsome]
      exact ⟨rfl, rfl, rfl, rfl, rfl, rfl, rfl, rfl⟩

end Sys2Proof.Machine
end

section
/-! SUPPORT. Facts about one step (10_state.md rules R20, R40, 20_memory.md rules R72, R75, R78): which moves change the run's inputs, the output
traces and the flags, and that an act reaches one unit alone. -/

namespace Sys2Proof.Machine

variable {d : Decoder} {p : Packer} {s : State} {a : Option Event}

/-! ### What the parts of a move leave unchanged -/

@[simp] theorem Decoder.vStep_nnodes : d.vStep.nnodes = d.nnodes := by unfold Decoder.vStep; split_ifs <;> rfl
@[simp] theorem Decoder.vStep_root : d.vStep.root = d.root := by unfold Decoder.vStep; split_ifs <;> rfl
@[simp] theorem Decoder.vStep_out : d.vStep.out = d.out := by unfold Decoder.vStep; split_ifs <;> rfl
@[simp] theorem Decoder.vStep_mid : d.vStep.mid = d.mid := by unfold Decoder.vStep; split_ifs <;> rfl
@[simp] theorem Decoder.vStep_eos : d.vStep.eos = d.eos := by unfold Decoder.vStep; split_ifs <;> rfl

@[simp] theorem Decoder.walkAtLeaf_nnodes (b : Bool) : (d.walkAtLeaf b).nnodes = d.nnodes := by cases b <;> rfl
@[simp] theorem Decoder.walkAtLeaf_root (b : Bool) : (d.walkAtLeaf b).root = d.root := by cases b <;> rfl
@[simp] theorem Decoder.walkAtLeaf_out (b : Bool) : (d.walkAtLeaf b).out = d.out := by cases b <;> rfl
@[simp] theorem Decoder.walkAtLeaf_eos (b : Bool) : (d.walkAtLeaf b).eos = d.eos := by cases b <;> rfl

@[simp] theorem Decoder.finish_nnodes : d.finish.nnodes = d.nnodes := by unfold Decoder.finish; split_ifs <;> rfl
@[simp] theorem Decoder.finish_root : d.finish.root = d.root := by unfold Decoder.finish; split_ifs <;> rfl
@[simp] theorem Decoder.finish_out : d.finish.out = d.out := by unfold Decoder.finish; split_ifs <;> rfl
@[simp] theorem Decoder.finish_mid : d.finish.mid = d.mid := by unfold Decoder.finish; split_ifs <;> rfl
@[simp] theorem Decoder.finish_eos : d.finish.eos = d.eos := by unfold Decoder.finish; split_ifs <;> rfl

/-! ### Moves of the decoder -/

/-- `D_NNODES` and `D_ROOT` change by a write taken in IDLE and by `rst` (R72 item 5). -/
theorem Decoder.move_config {d' : Decoder} (hi : d.state ≠ .idle) (m : DecoderMove a d d') :
    (d'.nnodes = d.nnodes ∧ d'.root = d.root) ∨ a = some .rst := by
  cases m with
  | rst ha => exact .inr ha
  | load _ _ h _ => exact absurd h hi
  | count _ h _ => exact absurd h hi
  | rootSet _ h _ => exact absurd h hi
  | stay => exact .inl ⟨rfl, rfl⟩
  | scan _ => exact .inl ⟨Decoder.vStep_nnodes, Decoder.vStep_root⟩
  | emit _ => exact .inl ⟨rfl, rfl⟩
  | descend _ _ => exact .inl ⟨rfl, rfl⟩
  | leafBit _ _ => exact .inl ⟨Decoder.walkAtLeaf_nnodes _, Decoder.walkAtLeaf_root _⟩
  | finish _ => exact .inl ⟨Decoder.finish_nnodes, Decoder.finish_root⟩
  | push _ _ _ => exact .inl ⟨rfl, rfl⟩
  | startNoTree _ _ _ => exact .inl ⟨rfl, rfl⟩
  | start _ _ _ => exact .inl ⟨rfl, rfl⟩
  | eos _ _ => exact .inl ⟨rfl, rfl⟩
  | clear _ _ => exact .inl ⟨rfl, rfl⟩

/-- The acts of the host that begin afresh: `rst`, or a start taken in IDLE. -/
def Decoder.BegunBy (d : Decoder) (a : Option Event) : Prop :=
  a = some .rst ∨ (d.state = .idle ∧ a = some (.regWrite 0x0#4 1#32))

/-- `OUT` grows by the emitted symbol, and is emptied where a run begins (R31, R78). -/
theorem Decoder.move_out {d' : Decoder} (m : DecoderMove a d d') :
    d'.out = d.out ∨ (d.outValid = true ∧ d'.out = d.out ++ [d.outSym]) ∨ (d'.out = [] ∧ d.BegunBy a) := by
  cases m with
  | emit h => exact .inr (.inl ⟨h, rfl⟩)
  | startNoTree h _ ha => exact .inr (.inr ⟨rfl, .inr ⟨h, ha⟩⟩)
  | start h _ ha => exact .inr (.inr ⟨rfl, .inr ⟨h, ha⟩⟩)
  | rst ha => exact .inr (.inr ⟨rfl, .inl ha⟩)
  | stay => exact .inl rfl
  | scan _ => exact .inl Decoder.vStep_out
  | descend _ _ => exact .inl rfl
  | leafBit _ _ => exact .inl (Decoder.walkAtLeaf_out _)
  | finish _ => exact .inl Decoder.finish_out
  | push _ _ _ => exact .inl rfl
  | load _ _ _ _ => exact .inl rfl
  | count _ _ _ => exact .inl rfl
  | rootSet _ _ _ => exact .inl rfl
  | eos _ _ => exact .inl rfl
  | clear _ _ => exact .inl rfl

/-- MID is set by a walk, and cleared by an emission and where a run begins (R40). -/
theorem Decoder.move_mid {d' : Decoder} (m : DecoderMove a d d') :
    d'.mid = d.mid ∨ (d'.mid = true ∧ d.walkEnabled = true) ∨
      (d'.mid = false ∧ (d.emitPending = true ∨ d.BegunBy a)) := by
  cases m with
  | emit h => exact .inr (.inr ⟨rfl, .inl h⟩)
  | descend hw _ => exact .inr (.inl ⟨rfl, hw⟩)
  | leafBit hw _ =>
    cases d.nextBit with
    | false => exact .inr (.inl ⟨rfl, hw⟩)
    | true => exact .inl rfl
  | startNoTree h _ ha => exact .inr (.inr ⟨rfl, .inr (.inr ⟨h, ha⟩)⟩)
  | start h _ ha => exact .inr (.inr ⟨rfl, .inr (.inr ⟨h, ha⟩)⟩)
  | rst ha => exact .inr (.inr ⟨rfl, .inr (.inl ha)⟩)
  | stay => exact .inl rfl
  | scan _ => exact .inl Decoder.vStep_mid
  | finish _ => exact .inl Decoder.finish_mid
  | push _ _ _ => exact .inl rfl
  | load _ _ _ _ => exact .inl rfl
  | count _ _ _ => exact .inl rfl
  | rootSet _ _ _ => exact .inl rfl
  | eos _ _ => exact .inl rfl
  | clear _ _ => exact .inl rfl

/-- EOS is set by `D_EOS` in a run, and cleared where a run begins (R40). -/
theorem Decoder.move_eos {d' : Decoder} (m : DecoderMove a d d') :
    d'.eos = d.eos ∨
      (d'.eos = true ∧ a = some (.regWrite 0x0#4 2#32) ∧ (d.state = .validate ∨ d.state = .run)) ∨
      (d'.eos = false ∧ d.BegunBy a) := by
  cases m with
  | eos h ha => exact .inr (.inl ⟨rfl, ha, h⟩)
  | startNoTree h _ ha => exact .inr (.inr ⟨rfl, .inr ⟨h, ha⟩⟩)
  | start h _ ha => exact .inr (.inr ⟨rfl, .inr ⟨h, ha⟩⟩)
  | rst ha => exact .inr (.inr ⟨rfl, .inl ha⟩)
  | stay => exact .inl rfl
  | scan _ => exact .inl Decoder.vStep_eos
  | emit _ => exact .inl rfl
  | descend _ _ => exact .inl rfl
  | leafBit _ _ => exact .inl (Decoder.walkAtLeaf_eos _)
  | finish _ => exact .inl Decoder.finish_eos
  | push _ _ _ => exact .inl rfl
  | load _ _ _ _ => exact .inl rfl
  | count _ _ _ => exact .inl rfl
  | rootSet _ _ _ => exact .inl rfl
  | clear _ _ => exact .inl rfl

/-! ### Moves of the bitpacker -/

/-- The acts of the host that begin afresh: `rst`, or a start taken in IDLE. -/
def Packer.BegunBy (p : Packer) (a : Option Event) : Prop :=
  a = some .rst ∨ (p.state = .idle ∧ a = some (.regWrite 0x8#4 1#32))

/-- `BYTES` grows by the byte transferred, and is emptied where a run begins (R38, R78). -/
theorem Packer.move_bytes {p' : Packer} (m : PackerMove a p p') :
    p'.bytes = p.bytes ∨ (p.byteValid = true ∧ p'.bytes = p.bytes ++ [p.byteData]) ∨
      (p'.bytes = [] ∧ p.BegunBy a) := by
  cases m with
  | transfer h => exact .inr (.inl ⟨h, rfl⟩)
  | start h ha => exact .inr (.inr ⟨rfl, .inr ⟨h, ha⟩⟩)
  | rst ha => exact .inr (.inr ⟨rfl, .inl ha⟩)
  | stay => exact .inl rfl
  | shift _ => exact .inl rfl
  | pad _ => exact .inl rfl
  | finish _ => exact .inl rfl
  | code _ _ _ _ => exact .inl rfl
  | unknown _ _ _ _ => exact .inl rfl
  | load _ _ _ _ _ => exact .inl rfl
  | flush _ _ => exact .inl rfl
  | clear _ _ => exact .inl rfl

/-- FLUSH is set by `P_FLUSH` in RUN, and cleared where a run begins (R40). -/
theorem Packer.move_flush {p' : Packer} (m : PackerMove a p p') :
    p'.flush = p.flush ∨ (p'.flush = true ∧ a = some (.regWrite 0x8#4 2#32) ∧ p.state = .run) ∨
      (p'.flush = false ∧ p.BegunBy a) := by
  cases m with
  | flush h ha => exact .inr (.inl ⟨rfl, ha, h⟩)
  | start h ha => exact .inr (.inr ⟨rfl, .inr ⟨h, ha⟩⟩)
  | rst ha => exact .inr (.inr ⟨rfl, .inl ha⟩)
  | stay => exact .inl rfl
  | shift _ => exact .inl rfl
  | transfer _ => exact .inl rfl
  | pad _ => exact .inl rfl
  | finish _ => exact .inl rfl
  | code _ _ _ _ => exact .inl rfl
  | unknown _ _ _ _ => exact .inl rfl
  | load _ _ _ _ _ => exact .inl rfl
  | clear _ _ => exact .inl rfl

/-- What sets and clears a flag, read off from the ways it can change. -/
theorem flag_change {b b' : Bool} {S C : Prop} (h : b' = b ∨ (b' = true ∧ S) ∨ (b' = false ∧ C)) :
    (b = false → b' = true → S) ∧ (b = true → b' = false → C) := by
  obtain rfl | ⟨rfl, hs⟩ | ⟨rfl, hc⟩ := h
  · exact ⟨fun h0 h1 => absurd (h0.symm.trans h1) Bool.noConfusion, fun h1 h0 => absurd (h0.symm.trans h1) Bool.noConfusion⟩
  · exact ⟨fun _ _ => hs, fun _ h => absurd h Bool.noConfusion⟩
  · exact ⟨fun _ h => absurd h Bool.noConfusion, fun _ _ => hc⟩

/-! ### An act reaches one unit alone (R20) -/

/-- What an act is to the block, as functions of each unit and its pin: it is an act on the decoder, on the bitpacker, or `rst`. -/
inductive ActsOn (e : Event) : (Bool → Decoder → Decoder) → (Bool → Packer → Packer) → Prop where
  | dec (f) : ActsOn e f fun _ p => p
  | pack (g) : ActsOn e (fun _ d => d) g
  | rst (he : e = .rst) : ActsOn e (fun _ d => Decoder.atReset d.tm) fun _ p => Packer.atReset p.ct

/-- Every instruction is one of one unit. -/
theorem exec_onUnit (i : Instr) :
    (∃ f, ∀ s, exec i s = .next (s.mapDec f)) ∨ (∃ g, ∀ s, exec i s = .next (s.mapPack g)) := by
  cases i with
  | int _ _ _ => exact .inl ⟨_, fun _ => rfl⟩
  | leaf _ _ _ => exact .inl ⟨_, fun _ => rfl⟩
  | b0 => exact .inl ⟨_, fun _ => rfl⟩
  | b1 => exact .inl ⟨_, fun _ => rfl⟩
  | dStart => exact .inl ⟨_, fun _ => rfl⟩
  | dEos => exact .inl ⟨_, fun _ => rfl⟩
  | dClear => exact .inl ⟨_, fun _ => rfl⟩
  | pStart => exact .inr ⟨_, fun _ => rfl⟩
  | pFlush => exact .inr ⟨_, fun _ => rfl⟩
  | pClear => exact .inr ⟨_, fun _ => rfl⟩
  | code _ _ _ => exact .inr ⟨_, fun _ => rfl⟩
  | absent _ _ => exact .inr ⟨_, fun _ => rfl⟩

/-- The decoder's own step as a function of the decoder and its pin (R120, R144). -/
def Decoder.turn (outReady : Bool) (d : Decoder) : Decoder :=
  if d.state = .validate then d.vStep
  else if d.emitPending then (if outReady then d.emit (nodeSym d.curWord) else d)
  else if d.walkEnabled then
    (if d.curTag then d.walkAtLeaf d.nextBit
      else d.descend (if d.nextBit then nodeRight d.curWord else nodeLeft d.curWord))
  else d.finish

theorem decoderStep_eq_turn (s : State) : decoderStep s = .next (s.mapDec (Decoder.turn s.host.outReady)) := by
  unfold decoderStep
  simp only [State.mapDec, Decoder.turn]
  split_ifs with hv he ho hw ht hb
  · rfl
  · rw [Decoder.fetchNode_of_leaf (Decoder.emitPending_iff.1 he).2.2, exec_leaf_of_emitPending he]
  · rfl
  · exact exec_fetchNode_of_leaf hw ht
  · rw [exec_fetchNode_of_internal hw (Bool.eq_false_iff.2 ht), if_pos hb]
  · rw [exec_fetchNode_of_internal hw (Bool.eq_false_iff.2 ht), if_neg hb]
  · rfl

theorem Packer.fetchEntry_of_noLen {y : Byte} (h : (p.ctRead y).len = 0) :
    p.fetchEntry y = .absent y (p.ctRead y).bits := if_pos h

theorem Packer.fetchEntry_of_len {y : Byte} (h : (p.ctRead y).len ≠ 0) :
    p.fetchEntry y = .code y (p.ctRead y).len (p.ctRead y).bits := if_neg h

/-- A pushed symbol as a function of the bitpacker (R173, R184). -/
def Packer.accept (y : Byte) (p : Packer) : Packer :=
  if p.symReady then
    if (p.ctRead y).len = 0 then p.raise .unknownSymbol y
    else { p with cbuf := (p.ctRead y).bits, clen := (p.ctRead y).len }
  else p

theorem symPush_eq_accept (y : Byte) (s : State) : symPush y s = .next (s.mapPack (Packer.accept y)) := by
  unfold symPush
  simp only [State.mapPack, Packer.accept]
  split_ifs with hr hl
  · rw [Packer.fetchEntry_of_noLen hl, exec_absent_of_symReady hr]
  · rw [Packer.fetchEntry_of_len hl, exec_code_of_symReady hr hl]
  · rfl

/-- Every act is, on the two units, a function of each unit and its pin. -/
theorem perform_actsOn (e : Event) : ∃ f g, ActsOn e f g ∧ ∀ s s', perform e s = .next s' →
    s'.dec = f s.host.outReady s.dec ∧ s'.pack = g s.host.byteReady s.pack := by
  cases e with
  | tmWrite i w => exact ⟨_, _, .dec fun _ => Decoder.tmWrite i w, fun _ _ h => by cases h; exact ⟨rfl, rfl⟩⟩
  | ctWrite y n c => exact ⟨_, _, .pack fun _ => Packer.ctWrite y n c, fun _ _ h => by cases h; exact ⟨rfl, rfl⟩⟩
  | regWrite a v =>
    cases hd : decode (.command a v) with
    | ok i =>
      obtain ⟨f, hf⟩ | ⟨g, hg⟩ := exec_onUnit i
      · refine ⟨_, _, .dec fun _ => f, fun s s' h => ?_⟩
        rw [perform_regWrite_of_decode hd, hf] at h
        cases h
        exact ⟨rfl, rfl⟩
      · refine ⟨_, _, .pack fun _ => g, fun s s' h => ?_⟩
        rw [perform_regWrite_of_decode hd, hg] at h
        cases h
        exact ⟨rfl, rfl⟩
    | error x =>
      refine ⟨_, _, .dec fun _ d => if a = 0x2#4 then d.writeNnodes v else if a = 0x3#4 then d.writeRoot v else d,
        fun s s' h => ?_⟩
      simp only [perform, regWrite, hd] at h
      split_ifs at h ⊢ <;> cases h <;> exact ⟨rfl, rfl⟩
  | regRead a => exact ⟨_, _, .dec fun _ d => d, fun _ _ h => by cases h; exact ⟨rfl, rfl⟩⟩
  | inPush b => exact ⟨_, _, .dec fun _ => Decoder.inPush b, fun _ _ h => by cases h; exact ⟨rfl, rfl⟩⟩
  | symPush y =>
    refine ⟨_, _, .pack fun _ => Packer.accept y, fun s s' h => ?_⟩
    rw [perform, symPush_eq_accept] at h
    cases h
    exact ⟨rfl, rfl⟩
  | rst => exact ⟨_, _, .rst rfl, fun _ _ h => by cases h; exact ⟨rfl, rfl⟩⟩
  | setOutReady b => exact ⟨_, _, .dec fun _ d => d, fun _ _ h => by cases h; exact ⟨rfl, rfl⟩⟩
  | setByteReady b => exact ⟨_, _, .dec fun _ d => d, fun _ _ h => by cases h; exact ⟨rfl, rfl⟩⟩
  | decoderTurn =>
    refine ⟨_, _, .dec Decoder.turn, fun s s' h => ?_⟩
    rw [perform, decoderStep_eq_turn] at h
    cases h
    exact ⟨rfl, rfl⟩
  | packerTurn => exact ⟨_, _, .pack Packer.step, fun _ _ h => by cases h; exact ⟨rfl, rfl⟩⟩
  | awaitDecoder => exact ⟨_, _, .dec fun _ d => d, fun _ _ h => by cases h; exact ⟨rfl, rfl⟩⟩
  | awaitPacker => exact ⟨_, _, .dec fun _ d => d, fun _ _ h => by cases h; exact ⟨rfl, rfl⟩⟩

/-! ### Canonical memories (log 11) -/

/-- A memory in canonical form begins with the least index that reads as a value. -/
theorem Memory.read?_eq_none_of_tail {α : Type} {bound lo k i : Nat} {v : α} {m : Memory α}
    (h : Memory.wfFrom bound lo ((k, v) :: m) = true) (hi : i < k) : Memory.read? ((k, v) :: m) i = none := by
  simp only [Memory.wfFrom, Bool.and_eq_true, decide_eq_true_eq] at h
  rw [Memory.read?, if_neg (by omega)]
  exact Memory.read?_of_lt h.2 (by omega)

/-- Canonical memories, from any starting bounds, that read equal are equal. -/
theorem Memory.eq_of_read?_eq {α : Type} {bound : Nat} : ∀ {lo lo' : Nat} {m m' : Memory α},
    Memory.wfFrom bound lo m = true → Memory.wfFrom bound lo' m' = true →
    (∀ i, Memory.read? m i = Memory.read? m' i) → m = m'
  | _, _, [], [], _, _, _ => rfl
  | _, _, [], (k, v) :: _, _, _, hr => by simpa [Memory.read?] using hr k
  | _, _, (k, v) :: _, [], _, _, hr => by simpa [Memory.read?] using hr k
  | _, _, (k, v) :: m, (k', v') :: m', h, h', hr => by
    have hk : k = k' := by
      rcases Nat.lt_trichotomy k k' with hlt | heq | hlt
      · have hnone := hr k
        rw [Memory.read?_eq_none_of_tail h' hlt, Memory.read?, if_pos rfl] at hnone
        cases hnone
      · exact heq
      · have hnone := hr k'
        rw [Memory.read?_eq_none_of_tail h hlt, Memory.read?, if_pos rfl] at hnone
        cases hnone
    subst hk
    obtain rfl : v = v' := by simpa [Memory.read?] using hr k
    simp only [Memory.wfFrom, Bool.and_eq_true] at h h'
    refine congrArg _ (Memory.eq_of_read?_eq h.2 h'.2 fun i => ?_)
    by_cases hi : k = i
    · rw [Memory.read?_of_lt h.2 (by omega), Memory.read?_of_lt h'.2 (by omega)]
    · simpa [Memory.read?, hi] using hr i

/-! ### The decoder's turn (log 4) -/

/-- A decoder that can step does so at its turn and where the host has no act. -/
theorem step_of_decoderTurn {rest : List Event}
    (ha : s.host.agenda = .decoderTurn :: rest ∨ (s.host.agenda = [] ∧ rest = []))
    (hc : s.dec.canStep s.host.outReady = true) : step s = decoderStep (s.withAgenda rest) := by
  obtain ha | ⟨ha, rfl⟩ := ha
  · rw [step_of_agenda_cons ha rfl, perform]
  · have hsame : s.withAgenda [] = s := by rw [State.withAgenda, ← ha]
    rw [step_of_noAct ha, unitsStep_of_canStep hc, hsame]

/-- An instruction whose condition is false answers the state it is given (log 2). -/
theorem exec_int_of_disabled (h : ¬(s.dec.walkEnabled = true ∧ s.dec.curTag = false)) (l r : NodeIdx) (y : Byte) :
    exec (.int l r y) s = .next s :=
  congrArg Host.Outcome.next (State.mapDec_of_fixed (if_neg (by simpa using h)))

theorem exec_leaf_of_disabled (he : s.dec.emitPending = false) (h : ¬(s.dec.walkEnabled = true ∧ s.dec.curTag = true))
    (l r : NodeIdx) (y : Byte) : exec (.leaf l r y) s = .next s :=
  congrArg Host.Outcome.next (State.mapDec_of_fixed (by rw [he, if_neg Bool.noConfusion, if_neg h]))

theorem exec_b0_of_disabled (h : ¬(s.dec.walkEnabled = true ∧ s.dec.nextBit = false)) : exec .b0 s = .next s :=
  congrArg Host.Outcome.next (State.mapDec_of_fixed (if_neg (by simpa using h)))

theorem exec_b1_of_disabled (h : ¬(s.dec.walkEnabled = true ∧ s.dec.nextBit = true)) : exec .b1 s = .next s :=
  congrArg Host.Outcome.next (State.mapDec_of_fixed (if_neg h))

theorem exec_code_of_disabled {n : CodeLen} (h : ¬(s.pack.symReady = true ∧ n ≠ 0)) (y : Byte) (c : CodeField) :
    exec (.code y n c) s = .next s :=
  congrArg Host.Outcome.next (State.mapPack_of_fixed (if_neg h))

theorem exec_absent_of_disabled (h : s.pack.symReady = false) (y : Byte) (c : CodeField) :
    exec (.absent y c) s = .next s :=
  congrArg Host.Outcome.next (State.mapPack_of_fixed (if_neg (Bool.eq_false_iff.1 h)))

end Sys2Proof.Machine
end

section
/-! The obligations about one step. -/

namespace Sys2Proof.Machine

/-- Settles O44: the memories change by a load taken in IDLE alone, the two registers by a write taken there or by `rst`. -/
theorem runInputsAreFrozen : Obligations.RunInputsAreFrozen := by
  intro s s' h
  have hm := step_cases h
  refine ⟨fun hi => ⟨?_, Decoder.move_config hi hm.dec⟩, fun hi => ?_⟩
  · exact (Decoder.move_tm hm.dec).resolve_right fun ⟨_, _, hidle, _⟩ => hi hidle
  · exact (Packer.move_ct hm.pack).resolve_right fun ⟨_, _, _, hidle, _⟩ => hi hidle

/-- Settles O45: of the moves an emission and a transfer append, and a start or `rst` empties. -/
theorem tracesGrowOneItemAtATime : Obligations.TracesGrowOneItemAtATime := by
  intro s s' h
  have hm := step_cases h
  exact ⟨Decoder.move_out hm.dec, (Packer.move_bytes hm.pack).imp_right
    (Or.imp_left fun ⟨hv, hb⟩ => ⟨hv, (Packer.outEnabled_iff.1 hv).2, hb⟩)⟩

/-- Settles O46: the ways each flag changes in a move. -/
theorem flagsChangeOnlyAsTabled : Obligations.FlagsChangeOnlyAsTabled := by
  intro s s' h
  have hm := step_cases h
  obtain ⟨hmidSet, hmidClear⟩ := flag_change (Decoder.move_mid hm.dec)
  obtain ⟨heosSet, heosClear⟩ := flag_change (Decoder.move_eos hm.dec)
  obtain ⟨hflushSet, hflushClear⟩ := flag_change (Packer.move_flush hm.pack)
  exact ⟨hmidSet, hmidClear, heosSet, heosClear, hflushSet, hflushClear⟩

/-- Settles O47: an act is a function of each unit and its pin, and but for `rst` it is the identity on one of the two. -/
theorem unitsNeverSeeEachOther : Obligations.UnitsNeverSeeEachOther := by
  intro e s t s' t' hs ht
  obtain ⟨f, g, hact, hfg⟩ := perform_actsOn e
  obtain ⟨hsd, hsp⟩ := hfg s s' hs
  obtain ⟨htd, htp⟩ := hfg t t' ht
  refine ⟨fun hd ho => by rw [hsd, htd, hd, ho], fun hp hb => by rw [hsp, htp, hp, hb], ?_⟩
  cases hact with
  | dec _ => exact .inr (.inl hsp)
  | pack _ => exact .inl hsd
  | rst he => exact .inr (.inr he)

/-- Settles O53: by induction on both lists, whose first indices agree. -/
theorem canonicalMemoriesAreEqualIfTheyReadEqual : Obligations.CanonicalMemoriesAreEqualIfTheyReadEqual :=
  fun _ _ _ _ h h' hr => Memory.eq_of_read?_eq h h' hr

/-- Settles O15: each condition is the negation of the one under which the instruction is enabled. -/
theorem disabledInstructionsChangeNothing : Obligations.DisabledInstructionsChangeNothing := by
  intro s l r y n c tag
  refine ⟨fun h => ?_, fun h => ?_, fun h => ?_, fun h => ?_, fun h => exec_code_of_disabled h y c,
    fun h => exec_absent_of_disabled h y c⟩
  · refine exec_int_of_disabled (fun ⟨hw, ht⟩ => ?_) l r y
    obtain ⟨hr, he, hc⟩ := Decoder.walkEnabled_iff.1 hw
    exact h ⟨hr, he, hc, ht⟩
  · refine exec_leaf_of_disabled (Bool.eq_false_iff.2 fun he => ?_) (fun ⟨hw, ht⟩ => ?_) l r y
    · obtain ⟨hr, hm, ht⟩ := Decoder.emitPending_iff.1 he
      exact h ⟨hr, ht, .inl hm⟩
    · obtain ⟨hr, -, hc⟩ := Decoder.walkEnabled_iff.1 hw
      exact h ⟨hr, ht, .inr hc⟩
  · refine exec_b0_of_disabled fun ⟨hw, hb⟩ => ?_
    obtain ⟨hr, he, hc⟩ := Decoder.walkEnabled_iff.1 hw
    exact h ⟨hr, he, hc, hb⟩
  · refine exec_b1_of_disabled fun ⟨hw, hb⟩ => ?_
    obtain ⟨hr, he, hc⟩ := Decoder.walkEnabled_iff.1 hw
    exact h ⟨hr, he, hc, hb⟩

/-- Settles O40: an act that carries an item runs what the item decodes to, and the decoder's turn runs the node fetched, which is what
the next bit does too. -/
theorem stepRunsTheDecodedInstruction : Obligations.StepRunsTheDecodedInstruction := by
  intro s i rest
  refine ⟨fun a v ha hd => ?_, fun y ha hr hd => ?_, fun ha hd hen => ?_, fun ha hd hw => ?_⟩
  · rw [step_of_agenda_cons ha rfl, perform_regWrite_of_decode hd]
  · obtain rfl : s.pack.fetchEntry y = i := Except.ok.inj hd
    rw [step_of_agenda_cons ha (by simp [blocked, hr])]
    exact perform_symPush_of_symReady (s := s.withAgenda rest) hr y
  · obtain rfl : s.dec.fetchNode = i := nodeInstr_of_decodeNode hd
    rw [step_of_decoderTurn ha (by simpa [Decoder.canStep, or_assoc] using .inr (hen.elim .inl fun hw => .inr (.inl hw)))]
    obtain ⟨he, ho⟩ | hw := hen
    · exact decoderStep_of_emitPending (s := s.withAgenda rest) he ho
    · exact decoderStep_of_walkEnabled (s := s.withAgenda rest) hw
  · obtain rfl : s.dec.fetchBit = i := Except.ok.inj hd
    rw [step_of_decoderTurn ha (by simp [Decoder.canStep, hw]), decoderStep_of_walkEnabled (s := s.withAgenda rest) hw]
    exact (exec_fetchBit_of_walkEnabled (s := s.withAgenda rest) hw).symm

end Sys2Proof.Machine
end

section
/-! SUPPORT. Trees, codes and tables (43_host_contract.md rules R201 to R207): no code begins another or is empty, a loaded tree is legal
and of odd size, and the entries written for a tree are a table of it. -/

namespace Sys2Proof.Reference

open Sys2Proof.Machine

variable {T : Arena} {t : PrefixTree} {r : NodeIdx} {table : Byte → CodeEntry} {payload : List Byte}

/-! ### Codes (R202, R205) -/

/-- Of two paths at different leaves neither begins the other: they part at the node where the leaves do. -/
theorem PrefixTree.paths_prefixFree : ∀ t : PrefixTree, t.paths.Pairwise fun c d => ¬c.2 <+: d.2 ∧ ¬d.2 <+: c.2
  | .leaf _ => List.pairwise_singleton _ _
  | .node l r => by
    rw [PrefixTree.paths, List.pairwise_append, List.pairwise_map, List.pairwise_map]
    refine ⟨l.paths_prefixFree.imp fun h => ?_, r.paths_prefixFree.imp fun h => ?_, fun c hc d hd => ?_⟩
    · simpa only [List.prefix_cons_inj] using h
    · simpa only [List.prefix_cons_inj] using h
    · obtain ⟨c, -, rfl⟩ := List.mem_map.1 hc
      obtain ⟨d, -, rfl⟩ := List.mem_map.1 hd
      simp [List.cons_prefix_cons]

/-- No code is empty (R205). -/
theorem PrefixTree.code_ne_nil : ∀ {t : PrefixTree} {p : Byte × List Bool}, p ∈ t.codes → p.2 ≠ []
  | .leaf _, p, h => by
    obtain rfl : p = (_, [false]) := List.mem_singleton.1 h
    exact List.cons_ne_nil _ _
  | .node l r, p, h => by
    simp only [PrefixTree.codes, PrefixTree.paths, List.mem_append, List.mem_map] at h
    obtain ⟨q, -, rfl⟩ | ⟨q, -, rfl⟩ := h <;> exact List.cons_ne_nil _ _

/-- No code is longer than the tree has leaves (R6). -/
theorem PrefixTree.length_code_le : ∀ {t : PrefixTree} {p : Byte × List Bool}, p ∈ t.codes →
    p.2.length ≤ max 1 (t.symbols.length - 1)
  | .leaf _, p, h => by
    obtain rfl : p = (_, [false]) := List.mem_singleton.1 h
    exact le_max_left _ _
  | .node l r, p, h => by
    have := PrefixTree.length_lt_of_mem_paths (t := .node l r) h
    omega

/-- Each symbol of the tree has a code. -/
theorem PrefixTree.exists_code {y : Byte} (hy : y ∈ t.symbols) : ∃ c, (y, c) ∈ t.codes := by
  rw [← t.codes_map_fst] at hy
  obtain ⟨⟨z, c⟩, hc, rfl⟩ := List.mem_map.1 hy
  exact ⟨c, hc⟩

/-! ### A loaded tree (R201, R206) -/

/-- Every node of a loaded tree is legal: its word is an `INT` or a `LEAF`, and its children are nodes of the tree (R92). -/
theorem LoadedTree.nodeOk {n : NodeCount} (h : LoadedTree T n t r) {i : NodeIdx} (hi : i.toNat < n.toNat) :
    nodeOk (T i) n = true := by
  have hmem := (h.numbered i).2 hi
  obtain ⟨ins, hdec⟩ := h.proper.oneVariant i hmem
  have hop : nodeOpcode (T i) = 0b011000#6 ∨ nodeOpcode (T i) = 0b100000#6 := by
    simp only [decode, decodeNode] at hdec
    split_ifs at hdec with hint hleaf
    · exact .inl hint
    · exact .inr hleaf
  rw [nodeOk_iff]
  refine hop.imp_left fun hint => ?_
  have htag : nodeTag (T i) = false := by rw [nodeTag_eq, hint]; rfl
  obtain ⟨hl, hr⟩ := children_mem_indices h.proper.holds hmem htag
  exact ⟨hint, (h.numbered _).1 hl, (h.numbered _).1 hr⟩

/-- A loaded tree has as many nodes as its count says, up to the 512 entries there are. -/
theorem LoadedTree.length_indices {n : NodeCount} (h : LoadedTree T n t r) :
    (indices T t r).length = min n.toNat 512 := by
  have hperm : ((indices T t r).map BitVec.toNat).Perm (List.range (min n.toNat 512)) := by
    refine (List.perm_ext_iff_of_nodup (h.proper.unshared.map fun _ _ => BitVec.eq_of_toNat_eq) List.nodup_range).2
      fun k => ?_
    simp only [List.mem_map, List.mem_range, h.numbered, lt_min_iff]
    constructor
    · rintro ⟨i, hi, rfl⟩
      exact ⟨hi, i.isLt⟩
    · rintro ⟨hn, hk⟩
      have hval : (BitVec.ofNat 9 k).toNat = k := Nat.mod_eq_of_lt hk
      exact ⟨BitVec.ofNat 9 k, by rwa [hval], hval⟩
  simpa using hperm.length_eq

/-- A loaded tree of `L` leaves has `2L - 1` nodes, and `L` is at most 256: the number of nodes is odd, so it is not 512 (R6). -/
theorem LoadedTree.size {n : NodeCount} (h : LoadedTree T n t r) :
    n.toNat + 1 = 2 * t.symbols.length ∧ t.symbols.length ≤ 256 := by
  have hlen := h.length_indices
  have hodd := Reference.length_indices T t r
  omega

/-! ### The entries written for a tree (R207) -/

/-- Where the symbols are distinct, the code found for a symbol is its code. -/
theorem PrefixTree.find?_code (hd : t.symbols.Nodup) {y : Byte} {c : List Bool} (h : (y, c) ∈ t.codes) :
    (t.codes.find? fun p => p.1 == y) = some (y, c) := by
  rw [← t.codes_map_fst] at hd
  obtain ⟨p, hp⟩ : ∃ p, (t.codes.find? fun p => p.1 == y) = some p :=
    Option.isSome_iff_exists.1 (List.find?_isSome.2 ⟨(y, c), h, by simp⟩)
  have hy : p.1 = y := by simpa using List.find?_some hp
  rw [hp, List.inj_on_of_nodup_map hd (List.mem_of_find?_eq_some hp) h hy]

/-- The entries written for a tree are a table of it, where its symbols are distinct and its codes fit an entry. -/
theorem PrefixTree.table_tableOf (hd : t.symbols.Nodup) (hlen : ∀ p ∈ t.codes, p.2.length ≤ 255) :
    TableOf t.table t where
  coded y c h := by
    simp only [PrefixTree.table, PrefixTree.find?_code hd h]
    exact codeBits_codeEntry (hlen _ h)
  others y hy := by
    have hnone : (t.codes.find? fun p => p.1 == y) = none := by
      refine List.find?_eq_none.2 fun p hp => ?_
      rintro heq
      obtain rfl : p.1 = y := by simpa using heq
      exact hy (t.codes_map_fst ▸ List.mem_map_of_mem hp)
    simp only [PrefixTree.table, hnone]

/-- Every symbol of the tree has an entry with a code. -/
theorem TableOf.len_ne_zero (h : TableOf table t) {y : Byte} (hy : y ∈ t.symbols) : (table y).len ≠ 0 := by
  obtain ⟨c, hc⟩ := PrefixTree.exists_code hy
  intro h0
  refine PrefixTree.code_ne_nil hc (?_ : c = [])
  rw [← h.coded y c hc, h0]
  rfl

end Sys2Proof.Reference
end

section
/-! The obligations about trees, codes and tables. -/

namespace Sys2Proof.Reference

/-- Settles O57: of two paths at different leaves neither begins the other. -/
theorem treeCodesArePrefixFree : Obligations.TreeCodesArePrefixFree := by
  intro l r i j c d hc hd hpre
  obtain ⟨hi, rfl⟩ := List.getElem?_eq_some_iff.1 hc
  obtain ⟨hj, rfl⟩ := List.getElem?_eq_some_iff.1 hd
  have hfree := List.pairwise_iff_getElem.1 (PrefixTree.node l r).paths_prefixFree
  rcases Nat.lt_trichotomy i j with hlt | heq | hlt
  · exact absurd hpre (hfree i j hi hj hlt).1
  · exact heq
  · exact absurd hpre (hfree j i hj hi hlt).2

/-- Settles O60: a loaded tree is legal and of odd size, which bounds its leaves and so its codes. -/
theorem properTreesLoadAndHaveATable : Obligations.ProperTreesLoadAndHaveATable := by
  intro T n t r h
  obtain ⟨hsize, hleaves⟩ := h.size
  have hcode (p) (hp : p ∈ t.codes) : p.2.length ≤ 255 := by
    have := PrefixTree.length_code_le hp
    omega
  exact ⟨Machine.leastIllegal_of_legal fun _ => h.nodeOk, (h.numbered r).1 (root_mem_indices T t r), hsize, hleaves,
    fun _ => PrefixTree.length_lt_of_mem_paths,
    fun p hp => ⟨List.length_pos_iff.2 (PrefixTree.code_ne_nil hp), hcode p hp⟩,
    PrefixTree.table_tableOf h.proper.distinct hcode⟩

end Sys2Proof.Reference
end

section
/-! SUPPORT. Whole runs of the bitpacker (R181): whole bytes of a bit string, the packing of a payload symbol by symbol, and the run that does it. -/

namespace Sys2Proof.Reference

open Sys2Proof.Machine

variable {table : Byte → CodeEntry} {bytes : List Byte} {bits : List Bool} {payload : List Byte}

/-! ### Whole bytes (R104) -/

/-- Eight bits in front are a byte in front. -/
theorem bytesOf_append {l : List Bool} (h : l.length = 8) (rest : List Bool) :
    bytesOf (l ++ rest) = byteOf l :: bytesOf rest := by
  match l, h with
  | [_, _, _, _, _, _, _, _], _ => rfl

/-- Fewer than eight bits are no byte. -/
theorem bytesOf_of_short (h : bits.length < 8) : bytesOf bits = [] := by
  unfold bytesOf
  split
  · simp at h
    omega
  · rfl

theorem padLength_le (bits : List Bool) : padLength bits ≤ 7 := by
  rw [padLength]
  omega

/-- Whole bytes need no padding. -/
theorem padLength_of_whole (h : bits.length % 8 = 0) : padLength bits = 0 := by rw [padLength, h]

theorem length_padded (bits : List Bool) : (padded bits).length % 8 = 0 := by
  rw [padded, List.length_append, List.length_replicate, padLength]
  omega

/-- A byte in front changes no padding. -/
theorem padded_append {l : List Bool} (h : l.length = 8) (rest : List Bool) : padded (l ++ rest) = l ++ padded rest := by
  rw [padded, padded, padLength, padLength, List.length_append, h, Nat.add_mod_left, List.append_assoc]

/-- The first padding bit leaves the padded bits as they are (R177). -/
theorem padded_append_false (h : bits.length % 8 ≠ 0) : padded (bits ++ [false]) = padded bits := by
  have hpad : padLength bits = padLength (bits ++ [false]) + 1 := by
    rw [padLength, padLength, List.length_append, List.length_singleton]
    omega
  rw [padded, padded, hpad, List.replicate_succ, List.append_assoc, List.singleton_append]

/-- The stream bits of the whole bytes of a bit string are that bit string. -/
theorem flatMap_streamBits_bytesOf (bits : List Bool) (h : bits.length % 8 = 0) :
    (bytesOf bits).flatMap streamBits = bits := by
  match bits with
  | [] => rfl
  | b7 :: b6 :: b5 :: b4 :: b3 :: b2 :: b1 :: b0 :: rest =>
    have ih := flatMap_streamBits_bytesOf rest (by simp only [List.length_cons] at h; omega)
    rw [bytesOf, List.flatMap_cons, streamBits_byteOf, ih]
    rfl
  | [_] | [_, _] | [_, _, _] | [_, _, _, _] | [_, _, _, _, _] | [_, _, _, _, _, _] | [_, _, _, _, _, _, _] =>
    simp at h

/-! ### Packing, symbol by symbol (R181) -/

/-- The bytes and the first unknown symbol of a run that has transferred `bytes`, holds `bits` and is given `payload`. -/
def packFrom (table : Byte → CodeEntry) (bytes : List Byte) : List Bool → List Byte → List Byte × Option Byte
  | bits, [] => (bytes ++ bytesOf (padded bits), none)
  | bits, y :: rest =>
    if (table y).len = 0 then (bytes ++ bytesOf bits, some y)
    else packFrom table bytes (bits ++ codeBits (table y).len (table y).bits) rest

/-- A transferred byte is one of the held bits' bytes. -/
theorem packFrom_transfer {l : List Bool} (h : l.length = 8) : ∀ (bits : List Bool) (payload : List Byte),
    packFrom table (bytes ++ [byteOf l]) bits payload = packFrom table bytes (l ++ bits) payload
  | bits, [] => by simp [packFrom, padded_append h, bytesOf_append h]
  | bits, y :: rest => by
    rw [packFrom, packFrom, packFrom_transfer h, bytesOf_append h, List.append_assoc, List.append_assoc,
      List.singleton_append]

theorem packFrom_of_known : ∀ {bits : List Bool} {payload : List Byte}, (∀ y ∈ payload, (table y).len ≠ 0) →
    packFrom table bytes bits payload = (bytes ++ bytesOf (padded (bits ++ payloadBits table payload)), none)
  | bits, [], _ => by simp [packFrom, payloadBits]
  | bits, y :: rest, h => by
    rw [packFrom, if_neg (h y List.mem_cons_self), packFrom_of_known fun z hz => h z (List.mem_cons_of_mem _ hz)]
    simp [payloadBits]

theorem packFrom_of_unknown {y : Byte} {rest : List Byte} (hy : (table y).len = 0) :
    ∀ {bits : List Bool} {known : List Byte}, (∀ z ∈ known, (table z).len ≠ 0) →
      packFrom table bytes bits (known ++ y :: rest) = (bytes ++ bytesOf (bits ++ payloadBits table known), some y)
  | bits, [], _ => by simp [packFrom, payloadBits, hy]
  | bits, z :: known, h => by
    rw [List.cons_append, packFrom, if_neg (h z List.mem_cons_self),
      packFrom_of_unknown hy fun x hx => h x (List.mem_cons_of_mem _ hx)]
    simp [payloadBits]

theorem knownPart_append_of_unknown {known rest : List Byte} {y : Byte} (hy : (table y).len = 0)
    (h : ∀ z ∈ known, (table z).len ≠ 0) : knownPart table (known ++ y :: rest) = known := by
  rw [knownPart, List.takeWhile_append_of_pos (by simpa using h), List.takeWhile_cons_of_neg (by simpa using hy),
    List.append_nil]

/-- A payload of symbols that have codes packs without error. -/
theorem packRun_of_known (h : ∀ y ∈ payload, (table y).len ≠ 0) :
    packRun table payload = (bytesOf (padded (payloadBits table payload)), none) := by
  have hknown : knownPart table payload = payload := List.takeWhile_eq_self_iff.2 (by simpa using h)
  have hdrop : payload.drop (knownPart table payload).length = [] := by rw [hknown, List.drop_length]
  simp only [packRun, hdrop]

/-- Nothing packs to nothing. -/
theorem packRun_nil (table : Byte → CodeEntry) : packRun table [] = ([], none) := by
  have hshort : (padded []).length < 8 := by decide
  rw [packRun_of_known fun _ h => absurd h List.not_mem_nil]
  exact Prod.ext (bytesOf_of_short hshort) rfl

/-- The first symbol without a code ends the packing (R184). -/
theorem packRun_of_unknown {known rest : List Byte} {y : Byte} (hy : (table y).len = 0)
    (h : ∀ z ∈ known, (table z).len ≠ 0) :
    packRun table (known ++ y :: rest) = (bytesOf (payloadBits table known), some y) := by
  have hknown := knownPart_append_of_unknown (rest := rest) hy h
  have hdrop : (known ++ y :: rest).drop (knownPart table (known ++ y :: rest)).length = y :: rest := by
    rw [hknown, List.drop_left]
  unfold packRun
  rw [hdrop, hknown]

/-- A payload has codes throughout, or a first symbol without one. -/
theorem known_or_unknown (table : Byte → CodeEntry) : ∀ payload : List Byte, (∀ y ∈ payload, (table y).len ≠ 0) ∨
    ∃ known y rest, payload = known ++ y :: rest ∧ (table y).len = 0 ∧ ∀ z ∈ known, (table z).len ≠ 0
  | [] => .inl fun _ hy => absurd hy List.not_mem_nil
  | y :: rest => by
    by_cases hy : (table y).len = 0
    · exact .inr ⟨[], y, rest, rfl, hy, fun _ hz => absurd hz List.not_mem_nil⟩
    · obtain h | ⟨known, z, rest', rfl, hz, h⟩ := known_or_unknown table rest
      · exact .inl (List.forall_mem_cons.2 ⟨hy, h⟩)
      · exact .inr ⟨y :: known, z, rest', rfl, hz, List.forall_mem_cons.2 ⟨hy, h⟩⟩

/-- Packing from nothing is the packing of R181. -/
theorem packFrom_nil_eq_packRun (table : Byte → CodeEntry) (payload : List Byte) :
    packFrom table [] [] payload = packRun table payload := by
  obtain h | ⟨known, y, rest, rfl, hy, h⟩ := known_or_unknown table payload
  · rw [packFrom_of_known h, packRun_of_known h]
    rfl
  · rw [packFrom_of_unknown hy h, packRun_of_unknown hy h]
    rfl

end Sys2Proof.Reference

namespace Sys2Proof.Machine

open Sys2Proof.Reference

variable {p : Packer} {s : State} {payload : List Byte}

/-! ### The bits the bitpacker holds (R34, R35) -/

/-- The bits of the byte being assembled, the first bit first. -/
def accBits (p : Packer) : List Bool := (streamBits p.acc).drop (8 - p.acclen.toNat)

/-- All bits held: those of the byte being assembled and then those of the code in progress. -/
def heldBits (p : Packer) : List Bool := accBits p ++ codeBits p.clen p.cbuf

theorem length_accBits (h : p.acclen.toNat ≤ 8) : (accBits p).length = p.acclen.toNat := by
  rw [accBits, List.length_drop, streamBits_length]
  omega

/-- A bit shifted in is the last stream bit, and the first one leaves. -/
theorem streamBits_shiftIn (v : Byte) (b : Bool) : streamBits (shiftIn v b) = (streamBits v).drop 1 ++ [b] := by
  have hnew : streamBits (shiftIn v b) = (List.range 7).map (streamBit (shiftIn v b)) ++ [b] := by
    have hlast : streamBit (shiftIn v b) 7 = b := shiftIn_getLsbD v b 0
    rw [streamBits, List.range_succ (n := 7), List.map_append, List.map_singleton, hlast]
  have hold : (streamBits v).drop 1 = (List.range 7).map fun j => streamBit v (j + 1) := by
    rw [streamBits, List.range_succ_eq_map (n := 7), List.map_cons, List.map_map]
    rfl
  rw [hnew, hold]
  refine congrArg (· ++ [b]) (List.map_congr_left fun j hj => ?_)
  have hj : j < 7 := List.mem_range.1 hj
  rw [streamBit, shiftIn_getLsbD, if_neg (by omega), decide_eq_true (by omega), Bool.true_and, streamBit]
  congr 1

/-- The number of bits after one more, with room for it. -/
theorem acclen_succ {n : BitVec 4} (h : n.toNat < 8) : (n + 1).toNat = n.toNat + 1 := by
  simp
  omega

theorem accBits_appendBit (h : p.acclen.toNat < 8) (b : Bool) : accBits (p.appendBit b) = accBits p ++ [b] := by
  have hdrop : 8 - p.acclen.toNat = 8 - (p.acclen.toNat + 1) + 1 := by omega
  rw [accBits, Packer.appendBit_acc, Packer.appendBit_acclen, acclen_succ h, streamBits_shiftIn,
    List.drop_append_of_le_length (by simp), List.drop_drop, accBits, hdrop, Nat.add_comm 1]

theorem codeBits_zero (c : CodeField) : codeBits 0 c = [] := rfl

/-- With no code in progress the bits held are those of the byte. -/
theorem heldBits_of_noCode (hc : p.clen = 0) : heldBits p = accBits p := by
  rw [heldBits, hc, codeBits_zero, List.append_nil]

/-! ### What a run still gives (R181) -/

/-- The bytes and the end that the run of `p` gives if `payload` is pushed from here on and then `P_FLUSH` is given. -/
def packResult (p : Packer) (payload : List Byte) : List Byte × Option Byte :=
  packFrom p.ctRead p.bytes (heldBits p) payload

/-- `P_SHIFT` moves a bit from the code to the byte (R174). -/
theorem packResult_shift (hs : p.shiftEnabled = true) :
    packResult { p.appendBit p.nextCodeBit with clen := p.clen - 1 } payload = packResult p payload := by
  obtain ⟨-, ha, hc⟩ := Packer.shiftEnabled_iff.1 hs
  have hheld : heldBits { p.appendBit p.nextCodeBit with clen := p.clen - 1 } = heldBits p := by
    show accBits (p.appendBit p.nextCodeBit) ++ codeBits (p.clen - 1) p.cbuf = _
    rw [accBits_appendBit ha, heldBits, codeBits_eq_cons p.cbuf hc, List.append_assoc]
    rfl
  rw [packResult, hheld]
  rfl

/-- `P_OUT` moves the first byte of the bits held to `BYTES` (R175). -/
theorem packResult_transfer (ho : p.outEnabled = true) :
    packResult { p with bytes := p.bytes ++ [p.acc], acc := 0, acclen := 0 } payload = packResult p payload := by
  have hacc : accBits p = streamBits p.acc := by
    rw [accBits, (Packer.outEnabled_iff.1 ho).2]
    rfl
  have h := packFrom_transfer (table := p.ctRead) (bytes := p.bytes) (streamBits_length p.acc) (codeBits p.clen p.cbuf)
    payload
  rw [byteOf_streamBits] at h
  rw [packResult, packResult, heldBits, heldBits, hacc, ← h]
  rfl

/-- `P_PAD` adds the first padding bit (R177). -/
theorem packResult_pad (hp : p.padEnabled = true) : packResult (p.appendBit false) [] = packResult p [] := by
  obtain ⟨-, ha, hc, -, h0⟩ := Packer.padEnabled_iff.1 hp
  have h0 : p.acclen.toNat ≠ 0 := fun h => h0 (BitVec.eq_of_toNat_eq h)
  have hlen : (accBits p).length % 8 ≠ 0 := by
    rw [length_accBits (by omega)]
    omega
  rw [packResult, packResult, heldBits_of_noCode hc, heldBits_of_noCode (p := p.appendBit false) hc,
    accBits_appendBit ha, packFrom, packFrom, padded_append_false hlen]
  rfl

/-- With nothing held and nothing to come the bytes are all transferred (R178). -/
theorem packResult_of_finishEnabled (hf : p.finishEnabled = true) : packResult p [] = (p.bytes, none) := by
  obtain ⟨-, ha, hc, -⟩ := Packer.finishEnabled_iff.1 hf
  have hacc : accBits p = [] := by
    rw [accBits, ha]
    rfl
  rw [packResult, heldBits_of_noCode hc, hacc, packFrom]
  exact Prod.ext (List.append_nil _) rfl

/-- An accepted symbol with a code adds it to the bits held (R173). -/
theorem packResult_code {y : Byte} (hr : p.symReady = true) (hl : (p.ctRead y).len ≠ 0) :
    packResult { p with cbuf := (p.ctRead y).bits, clen := (p.ctRead y).len } payload = packResult p (y :: payload) := by
  rw [packResult, packResult, heldBits_of_noCode (Packer.symReady_iff.1 hr).2.1, packFrom, if_neg hl]
  rfl

/-- An accepted symbol without a code ends the run; the bits held are no whole byte (R184). -/
theorem packResult_of_unknown {y : Byte} (hr : p.symReady = true) (hl : (p.ctRead y).len = 0) :
    packResult p (y :: payload) = (p.bytes, some y) := by
  obtain ⟨-, hc, -, ha⟩ := Packer.symReady_iff.1 hr
  rw [packResult, heldBits_of_noCode hc, packFrom, if_pos hl,
    bytesOf_of_short ((length_accBits ha.le).trans_lt ha), List.append_nil]

/-! ### The run -/

/-- How a run ends: DONE with no bit left over, or UnknownSymbol with its symbol (R178, R184). -/
def PackEnd (p : Packer) : Option Byte → Prop
  | none => p.state = .done ∧ p.errcode = .noError ∧ p.acclen = 0
  | some y => p.state = .error ∧ p.errcode = .unknownSymbol ∧ p.errinfo = y

/-- A bitpacker in RUN beside a decoder without a step, its bytes drained, with the symbols `payload` and then `P_FLUSH` still to come
(R183). -/
structure PackFed (s : State) (payload : List Byte) : Prop where
  running : s.pack.state = .run
  clean : s.pack.errcode = .noError
  bitsLegal : s.pack.acclen.toNat ≤ 8
  drained : s.host.byteReady = true
  decWaits : s.dec.canStep s.host.outReady = false
  feeds : (s.pack.flush = false ∧ s.host.agenda = payload.map .symPush ++ [.regWrite 0x8#4 2#32]) ∨
    (s.pack.flush = true ∧ s.host.agenda = [] ∧ payload = [])

/-- The steps a byte with `n` bits takes at most until it is empty: its padding and its transfer. -/
def byteSteps (n : Nat) : Nat := if n = 0 then 0 else 9 - n

/-- At most so many steps a run takes to its end but for `P_FINISH`: for each bit of a code 9, and for each symbol its push and the bits of a
code of 255. -/
def packSteps (p : Packer) (payload : List Byte) : Nat :=
  2300 * payload.length + 9 * p.clen.toNat + byteSteps p.acclen.toNat + (!p.flush).toNat

/-- One more bit in a byte that has some is one step fewer. -/
theorem byteSteps_succ_lt {n : Nat} (h0 : n ≠ 0) (h8 : n < 8) : byteSteps (n + 1) < byteSteps n := by
  simp [byteSteps, h0]
  omega

theorem byteSteps_succ_le (n : Nat) : byteSteps (n + 1) ≤ 8 := by
  simp [byteSteps]

/-- What every step of the run leaves unchanged: the decoder, the table, and the host's pins. -/
structure PackFrame (s s' : State) : Prop where
  dec : s'.dec = s.dec
  ct : s'.pack.ct = s.pack.ct
  outReady : s'.host.outReady = s.host.outReady

/-- A step of the run: the run goes on with the same result and fewer steps to come, or it has ended with its result. -/
def PackStep (s s' : State) (payload : List Byte) : Prop :=
  PackFrame s s' ∧
    ((∃ payload', PackFed s' payload' ∧ packResult s'.pack payload' = packResult s.pack payload ∧
        packSteps s'.pack payload' < packSteps s.pack payload) ∨
      (s'.pack.bytes = (packResult s.pack payload).1 ∧ PackEnd s'.pack (packResult s.pack payload).2))

/-- `P_OUT` in the run. -/
theorem pack_transfer (h : PackFed s payload) (hstep : step s = packerStep s) (ho : s.pack.outEnabled = true) :
    ∃ s', step s = .next s' ∧ PackStep s s' payload := by
  rw [hstep]
  refine ⟨_, packerStep_of_outEnabled ho h.drained, ⟨rfl, rfl, rfl⟩, .inl ⟨payload,
    ⟨h.running, h.clean, Nat.zero_le 8, h.drained, h.decWaits, h.feeds⟩, packResult_transfer ho, ?_⟩⟩
  simp [packSteps, byteSteps, (Packer.outEnabled_iff.1 ho).2]

/-- `P_SHIFT` in the run. -/
theorem pack_shift (h : PackFed s payload) (hstep : step s = packerStep s) (hs : s.pack.shiftEnabled = true) :
    ∃ s', step s = .next s' ∧ PackStep s s' payload := by
  obtain ⟨-, hroom, hc⟩ := Packer.shiftEnabled_iff.1 hs
  have hsucc := acclen_succ hroom
  have hc : s.pack.clen.toNat ≠ 0 := fun h => hc (BitVec.eq_of_toNat_eq h)
  have hpred : (s.pack.clen - 1).toNat = s.pack.clen.toNat - 1 := by simp; omega
  have hbyte := byteSteps_succ_le s.pack.acclen.toNat
  rw [hstep]
  refine ⟨_, packerStep_of_shiftEnabled hs, ⟨rfl, rfl, rfl⟩, .inl ⟨payload,
    ⟨h.running, h.clean, hsucc.trans_le hroom, h.drained, h.decWaits, h.feeds⟩, packResult_shift hs, ?_⟩⟩
  simp only [packSteps, Packer.appendBit_acclen, Packer.appendBit_flush, hsucc, hpred]
  omega

/-- `P_PAD` in the run, after the last symbol. -/
theorem pack_pad (h : PackFed s []) (hstep : step s = packerStep s) (hp : s.pack.padEnabled = true) :
    ∃ s', step s = .next s' ∧ PackStep s s' [] := by
  obtain ⟨-, hroom, -, -, h0⟩ := Packer.padEnabled_iff.1 hp
  have hsucc := acclen_succ hroom
  have hless := byteSteps_succ_lt (fun h => h0 (BitVec.eq_of_toNat_eq h)) hroom
  rw [hstep]
  refine ⟨_, packerStep_of_padEnabled hp, ⟨rfl, rfl, rfl⟩, .inl ⟨[],
    ⟨h.running, h.clean, hsucc.trans_le hroom, h.drained, h.decWaits, h.feeds⟩, packResult_pad hp, ?_⟩⟩
  simp only [packSteps, Packer.appendBit_acclen, Packer.appendBit_clen, Packer.appendBit_flush, hsucc]
  omega

/-- `P_FINISH`, the end of the run. -/
theorem pack_finish (h : PackFed s []) (hstep : step s = packerStep s) (hf : s.pack.finishEnabled = true) :
    ∃ s', step s = .next s' ∧ PackStep s s' [] := by
  rw [hstep]
  refine ⟨_, packerStep_of_finishEnabled hf, ⟨rfl, rfl, rfl⟩, .inr ?_⟩
  rw [packResult_of_finishEnabled hf]
  exact ⟨rfl, rfl, h.clean, (Packer.finishEnabled_iff.1 hf).2.1⟩

/-- The bitpacker's own step where it accepts no symbol: a full byte is transferred, else a code shifted, else FLUSH pads or finishes
(R170). -/
theorem pack_ownStep (h : PackFed s payload) (hr : s.pack.symReady = false) (hunits : step s = unitsStep s) :
    ∃ s', step s = .next s' ∧ PackStep s s' payload := by
  have hstep : step s = packerStep s := by simp [hunits, unitsStep, h.decWaits]
  obtain hroom | hfull := Nat.lt_or_eq_of_le h.bitsLegal
  · by_cases hc : s.pack.clen = 0
    · have hflush : s.pack.flush = true := by
        by_contra hfl
        exact Bool.eq_false_iff.1 hr (Packer.symReady_iff.2 ⟨h.running, hc, Bool.eq_false_iff.2 hfl, hroom⟩)
      obtain ⟨hfl, -⟩ | ⟨-, -, rfl⟩ := h.feeds
      · exact absurd (hflush.symm.trans hfl) (by decide)
      by_cases h0 : s.pack.acclen = 0
      · exact pack_finish h hstep (Packer.finishEnabled_iff.2 ⟨h.running, h0, hc, hflush⟩)
      · exact pack_pad h hstep (Packer.padEnabled_iff.2 ⟨h.running, hroom, hc, hflush, h0⟩)
    · exact pack_shift h hstep (Packer.shiftEnabled_iff.2 ⟨h.running, hroom, hc⟩)
  · exact pack_transfer h hstep (Packer.outEnabled_iff.2 ⟨h.running, BitVec.eq_of_toNat_eq hfull⟩)

/-- The push of the next symbol, accepted. -/
theorem pack_push {y : Byte} {rest : List Byte} (h : PackFed s (y :: rest)) (hr : s.pack.symReady = true)
    (ha : s.host.agenda = (y :: rest).map .symPush ++ [.regWrite 0x8#4 2#32]) :
    ∃ s', step s = .next s' ∧ PackStep s s' (y :: rest) := by
  obtain ⟨-, hc, hflush, -⟩ := Packer.symReady_iff.1 hr
  have hstep := step_of_agenda_cons ha (by simp [blocked, hr])
  rw [perform, symPush_eq_accept] at hstep
  refine ⟨_, hstep, ?_⟩
  by_cases hl : (s.pack.ctRead y).len = 0
  · have hacc : s.pack.accept y = s.pack.raise .unknownSymbol y := by rw [Packer.accept, if_pos hr, if_pos hl]
    simp only [State.mapPack, State.withAgenda_pack, hacc]
    refine ⟨⟨rfl, rfl, rfl⟩, .inr ?_⟩
    rw [packResult_of_unknown hr hl]
    exact ⟨rfl, rfl, rfl, rfl⟩
  · have hacc : s.pack.accept y = { s.pack with cbuf := (s.pack.ctRead y).bits, clen := (s.pack.ctRead y).len } := by
      rw [Packer.accept, if_pos hr, if_neg hl]
    simp only [State.mapPack, State.withAgenda_pack, hacc]
    refine ⟨⟨rfl, rfl, rfl⟩, .inl ⟨rest, ⟨h.running, h.clean, h.bitsLegal, h.drained, h.decWaits, .inl ⟨hflush, rfl⟩⟩,
      packResult_code hr hl, ?_⟩⟩
    have := (s.pack.ctRead y).len.isLt
    simp only [packSteps, List.length_cons, hc]
    omega

/-- The host's `P_FLUSH` after the last symbol. -/
theorem pack_flush (h : PackFed s []) (hfl : s.pack.flush = false) (ha : s.host.agenda = [.regWrite 0x8#4 2#32]) :
    ∃ s', step s = .next s' ∧ PackStep s s' [] := by
  have hstep : step s = exec .pFlush (s.withAgenda []) := by
    rw [step_of_agenda_cons ha rfl, perform_regWrite_of_decode rfl]
  rw [exec_pFlush_of_run (s := s.withAgenda []) h.running] at hstep
  refine ⟨_, hstep, ⟨rfl, rfl, rfl⟩, .inl ⟨[], ⟨h.running, h.clean, h.bitsLegal, h.drained, h.decWaits,
    .inr ⟨rfl, rfl, rfl⟩⟩, rfl, ?_⟩⟩
  simp [packSteps, hfl]

/-- Every step of the run is one of the bitpacker, an accepted symbol, or `P_FLUSH`. -/
theorem pack_step (h : PackFed s payload) : ∃ s', step s = .next s' ∧ PackStep s s' payload := by
  obtain ⟨hfl, ha⟩ | ⟨hfl, ha, rfl⟩ := h.feeds
  · cases payload with
    | nil => exact pack_flush h hfl ha
    | cons y rest =>
      cases hr : s.pack.symReady with
      | true => exact pack_push h hr ha
      | false => exact pack_ownStep h hr (step_of_blocked ha (by simp [blocked, hr]))
  · have hr : s.pack.symReady = false := by simp [Packer.symReady, hfl]
    exact pack_ownStep h hr (step_of_noAct ha)

/-- The run ends with its result. -/
theorem pack_run {s : State} {payload : List Byte} (h : PackFed s payload) :
    ∃ k, ∃ s' : State, core.run k s = .next s' ∧ PackFrame s s' ∧ s'.pack.bytes = (packResult s.pack payload).1 ∧
      PackEnd s'.pack (packResult s.pack payload).2 := by
  obtain ⟨t, hstep, hframe, hnext | hend⟩ := pack_step h
  · obtain ⟨payload', hfed, hres, hless⟩ := hnext
    obtain ⟨k, s', hrun, hframe', hend⟩ := pack_run hfed
    exact ⟨k + 1, s', core_run_succ hstep hrun, ⟨hframe'.dec.trans hframe.dec, hframe'.ct.trans hframe.ct,
      hframe'.outReady.trans hframe.outReady⟩, hres ▸ hend⟩
  · exact ⟨1, t, core_run_succ hstep rfl, hframe, hend⟩
  termination_by packSteps s.pack payload

/-- The bitpacker at the start of a run (R172). -/
def Packer.initRun (p : Packer) : Packer :=
  { p with
    bytes := [], acc := 0, acclen := 0, cbuf := 0, clen := 0, flush := false,
    errcode := .noError, errinfo := 0, state := .run }

/-- From IDLE, `P_START`, the symbols and `P_FLUSH` give the bytes and the end of R181. -/
theorem pack_run_from_idle (hi : s.pack.state = .idle) (hd : s.dec.canStep s.host.outReady = false)
    (hb : s.host.byteReady = true)
    (ha : s.host.agenda = .regWrite 0x8#4 1#32 :: payload.map .symPush ++ [.regWrite 0x8#4 2#32]) :
    ∃ k, ∃ s' : State, core.run k s = .next s' ∧ PackFrame s s' ∧ s'.pack.bytes = (packRun s.pack.ctRead payload).1 ∧
      PackEnd s'.pack (packRun s.pack.ctRead payload).2 := by
  rw [List.cons_append] at ha
  have hstep : step s = .next { s.withAgenda (payload.map .symPush ++ [.regWrite 0x8#4 2#32]) with
      pack := s.pack.initRun } := by
    rw [step_of_agenda_cons ha rfl, perform_regWrite_of_decode rfl]
    exact exec_pStart_of_idle hi
  obtain ⟨k, s', hrun, hframe, hend⟩ := pack_run (payload := payload)
    (s := { s.withAgenda (payload.map .symPush ++ [.regWrite 0x8#4 2#32]) with pack := s.pack.initRun })
    ⟨rfl, rfl, Nat.zero_le 8, hb, hd, .inl ⟨rfl, rfl⟩⟩
  rw [← packFrom_nil_eq_packRun]
  exact ⟨k + 1, s', core_run_succ hstep hrun, ⟨hframe.dec, hframe.ct, hframe.outReady⟩, hend⟩

end Sys2Proof.Machine
end

section
/-! The obligation about whole runs of the bitpacker. -/

namespace Sys2Proof.Machine

/-- Settles O39: from IDLE the run is fed with its symbols, and with nothing transferred or held its result is that of R181. -/
theorem packerRunIsTheArtifact : Obligations.PackerRunIsTheArtifact := by
  intro s payload hi hd hb ha
  obtain ⟨k, s', hrun, hframe, hbytes, hend⟩ := pack_run_from_idle hi hd hb ha
  exact ⟨k, s', hrun, hframe.dec, hframe.ct, hbytes, hend⟩

end Sys2Proof.Machine
end

section
/-! SUPPORT. The round trip (R132, R151, R183, R212): the walk along the codes of a payload and then along padding, and a decoder run from
`D_START` on. -/

namespace Sys2Proof.Reference

open Sys2Proof.Machine

variable {T : Arena} {r : NodeIdx} {t : PrefixTree} {table : Byte → CodeEntry} {y : Byte} {out : List Byte}

/-! ### The walk along a payload (R212) -/

/-- Inside the tree the rest of a path leads to its leaf, whose symbol is emitted. -/
theorem walk_path (rest : List Bool) : ∀ {t : PrefixTree} {i : NodeIdx} {y : Byte} {c : List Bool}, Represents T t i →
    (y, c) ∈ t.paths → walk T r i true (c ++ rest) out = walk T r r false rest (out ++ [y])
  | .leaf z, i, y, c, ⟨htag, hsym⟩, hmem => by
    obtain ⟨rfl, rfl⟩ := Prod.mk.inj (List.mem_singleton.1 hmem)
    rw [List.nil_append, walk_of_pending ⟨rfl, htag⟩, hsym]
  | .node l r', i, y, c, ⟨htag, hl, hr⟩, hmem => by
    simp only [PrefixTree.paths, List.mem_append, List.mem_map, Prod.mk.injEq] at hmem
    obtain ⟨p, hp, rfl, rfl⟩ | ⟨p, hp, rfl, rfl⟩ := hmem
    · rw [List.cons_append, walk_internal htag]
      exact walk_path rest hl hp
    · rw [List.cons_append, walk_internal htag]
      exact walk_path rest hr hp

/-- From the root a whole code gives its symbol. -/
theorem walk_code (rest : List Bool) {c : List Bool} (hrep : Represents T t r) (hc : (y, c) ∈ t.codes) :
    walk T r r false (c ++ rest) out = walk T r r false rest (out ++ [y]) := by
  cases t with
  | leaf z =>
    obtain ⟨htag, hsym⟩ := hrep
    obtain ⟨rfl, rfl⟩ := Prod.mk.inj (List.mem_singleton.1 hc)
    rw [List.singleton_append, walk_leaf_false htag, walk_of_pending ⟨rfl, htag⟩, hsym]
  | node l r' =>
    obtain ⟨b, c, rfl⟩ := List.exists_cons_of_ne_nil (PrefixTree.code_ne_nil hc)
    have hmid : walk T r r false (b :: c ++ rest) out = walk T r r true (b :: c ++ rest) out := by
      rw [List.cons_append, walk_internal hrep.1, walk_internal hrep.1]
    rw [hmid, walk_path rest hrep hc]

/-- From the root the codes of a payload give the payload. -/
theorem walk_payload (hrep : Represents T t r) (htab : TableOf table t) (rest : List Bool) :
    ∀ {payload : List Byte} {out : List Byte}, (∀ y ∈ payload, y ∈ t.symbols) →
      walk T r r false (payloadBits table payload ++ rest) out = walk T r r false rest (out ++ payload)
  | [], out, _ => by rw [List.append_nil]; rfl
  | y :: payload, out, h => by
    obtain ⟨c, hc⟩ := PrefixTree.exists_code (h y List.mem_cons_self)
    have ih := walk_payload hrep htab rest (out := out ++ [y]) fun z hz => h z (List.mem_cons_of_mem y hz)
    rw [payloadBits] at ih ⊢
    rw [List.flatMap_cons, htab.coded y c hc, List.append_assoc, walk_code _ hrep hc, ih, List.append_assoc,
      List.singleton_append]

/-! ### The walk along padding (R211) -/

/-- The result adds at most `n` symbols to `out`, and has no mismatch. -/
def AddsAtMost (n : Nat) (out : List Byte) (res : List Byte × RunEnd) : Prop :=
  ∃ extra e, res = (out ++ extra, e) ∧ extra.length ≤ n ∧ (e = .done ∨ ∃ i, e = .error .streamCorruption i)

/-- Where nothing is pending, each padding bit adds at most one symbol, and a bit 0 is no mismatch. -/
theorem walk_zeros (k : Nat) : ∀ {cur : NodeIdx} {mid : Bool} {out : List Byte},
    ¬(mid = true ∧ nodeTag (T cur) = true) → AddsAtMost k out (walk T r cur mid (List.replicate k false) out) := by
  induction k with
  | zero =>
    intro cur mid out hp
    refine ⟨[], _, by rw [List.replicate_zero, walk_nil hp, List.append_nil], Nat.le_refl 0, ?_⟩
    cases mid with
    | false => exact .inl rfl
    | true => exact .inr ⟨cur, rfl⟩
  | succ k ih =>
    intro cur mid out hp
    have hnext (cur' : NodeIdx) : AddsAtMost (k + 1) out (walk T r cur' true (List.replicate k false) out) := by
      by_cases hp' : true = true ∧ nodeTag (T cur') = true
      · obtain ⟨extra, e, hres, hlen, hend⟩ := ih (cur := r) (mid := false) (out := out ++ [nodeSym (T cur')]) (by simp)
        exact ⟨nodeSym (T cur') :: extra, e, by rw [walk_of_pending hp', hres, List.append_assoc, List.singleton_append],
          Nat.succ_le_succ hlen, hend⟩
      · obtain ⟨extra, e, hres, hlen, hend⟩ := ih (out := out) hp'
        exact ⟨extra, e, hres, hlen.trans (Nat.le_succ k), hend⟩
    rw [List.replicate_succ]
    cases htag : nodeTag (T cur) with
    | true =>
      obtain rfl : mid = false := Bool.eq_false_iff.2 fun hm => hp ⟨hm, htag⟩
      rw [walk_leaf_false htag]
      exact hnext cur
    | false =>
      rw [walk_internal htag]
      exact hnext _

/-- At a lone Leaf each bit 0 is its symbol (R125). -/
theorem walk_lone_zeros (htag : nodeTag (T r) = true) (k : Nat) (out : List Byte) :
    walk T r r false (List.replicate k false) out = (out ++ List.replicate k (nodeSym (T r)), .done) := by
  induction k generalizing out with
  | zero =>
    rw [List.replicate_zero, List.replicate_zero, List.append_nil, walk_nil (by simp)]
    rfl
  | succ k ih =>
    rw [List.replicate_succ, walk_leaf_false htag, walk_of_pending ⟨rfl, htag⟩, ih, List.append_assoc,
      List.singleton_append, List.replicate_succ]

/-! ### Decoding what was packed -/

/-- The bits of a payload's artifact decode to the payload and then to what the padding gives. -/
theorem decodeBits_artifact {payload : List Byte} (hrep : Represents T t r) (htab : TableOf table t)
    (hsym : ∀ y ∈ payload, y ∈ t.symbols) :
    decodeBits T r ((packRun table payload).1.flatMap streamBits) =
      walk T r r false (List.replicate (padLength (payloadBits table payload)) false) payload := by
  rw [packRun_of_known fun y hy => htab.len_ne_zero (hsym y hy), flatMap_streamBits_bytesOf _ (length_padded _),
    decodeBits, padded, walk_payload hrep htab _ hsym, List.nil_append]

/-- In a single-leaf tree every symbol has one bit (R205). -/
theorem length_payloadBits_of_leaf (htab : TableOf table (.leaf y)) : ∀ {payload : List Byte},
    (∀ z ∈ payload, z ∈ (PrefixTree.leaf y).symbols) → (payloadBits table payload).length = payload.length
  | [], _ => rfl
  | z :: payload, h => by
    have hz : z = y := List.mem_singleton.1 (h z List.mem_cons_self)
    have ih := length_payloadBits_of_leaf htab fun x hx => h x (List.mem_cons_of_mem z hx)
    rw [payloadBits] at ih ⊢
    rw [List.flatMap_cons, hz, htab.coded y [false] (List.mem_singleton.2 rfl), List.length_append, List.length_singleton,
      ih, List.length_cons, Nat.add_comm]

/-- A single-leaf tree gives its symbol once for every bit of the whole bytes (R132). -/
theorem payload_append_padding_of_leaf {payload : List Byte} (htab : TableOf table (.leaf y))
    (hsym : ∀ z ∈ payload, z ∈ (PrefixTree.leaf y).symbols) :
    payload ++ List.replicate (padLength (payloadBits table payload)) y =
      List.replicate (8 * ((payload.length + 7) / 8)) y := by
  have hpay : payload = List.replicate payload.length y :=
    List.eq_replicate_iff.2 ⟨rfl, fun z hz => List.mem_singleton.1 (hsym z hz)⟩
  have hlen : payload.length + padLength (payloadBits table payload) = 8 * ((payload.length + 7) / 8) := by
    rw [padLength, length_payloadBits_of_leaf htab hsym]
    omega
  rw [← hlen, ← List.replicate_append_replicate, ← hpay]

end Sys2Proof.Reference

namespace Sys2Proof.Machine

open Sys2Proof.Reference

variable {s : State} {bytes : List Byte}

/-! ### A decoder run from `D_START` (R151) -/

/-- Beginning a scan of a legal tree, with bytes and then `D_EOS` to come, the decoder reaches RUN at its root, still fed with the bytes. -/
theorem scan_to_fed (hs : s.dec.state = .validate) (hout : s.host.outReady = true) (hfeeds : Feeds s bytes)
    (hn : s.dec.nnodes.toNat ≤ 512) (hv : s.dec.vptr.toNat < s.dec.nnodes.toNat) (hb : s.dec.bitcnt = 0)
    (hlegal : ∀ i : NodeIdx, i.toNat < s.dec.nnodes.toNat → nodeOk (s.dec.tmRead i) s.dec.nnodes = true)
    (hwait : ∀ t : State, t.dec.state = .validate → t.host = s.host → step t = unitsStep t) :
    ∃ k, ∃ s' : State, core.run k s = .next s' ∧ Fed s' bytes ∧ runResult s'.dec bytes = runResult s.dec bytes := by
  obtain ⟨k, d', -, hend, hrun⟩ := scan_run s hs hwait hn hv fun i hi => hlegal i (hi.trans hv)
  cases hend with
  | legal v _ => exact ⟨k, _, hrun, ⟨rfl, by simp [hb], hout, hfeeds⟩, rfl⟩
  | illegal v hv hbad _ => exact absurd ((hlegal v hv).symm.trans hbad) (by decide)

/-- As `scan_to_fed`, where the host may give `D_EOS` during the scan because there are no bytes. -/
theorem validate_to_fed (hs : s.dec.state = .validate) (hout : s.host.outReady = true) (he : s.dec.eos = false)
    (ha : s.host.agenda = bytes.map .inPush ++ [.regWrite 0x0#4 2#32])
    (hn : s.dec.nnodes.toNat ≤ 512) (hv : s.dec.vptr.toNat < s.dec.nnodes.toNat) (hb : s.dec.bitcnt = 0)
    (hlegal : ∀ i : NodeIdx, i.toNat < s.dec.nnodes.toNat → nodeOk (s.dec.tmRead i) s.dec.nnodes = true) :
    ∃ k, ∃ s' : State, core.run k s = .next s' ∧ Fed s' bytes ∧ runResult s'.dec bytes = runResult s.dec bytes := by
  cases bytes with
  | nil =>
    have hstep : step s = .next { s.withAgenda [] with dec := { s.dec with eos := true } } := by
      rw [step_of_agenda_cons ha rfl, perform_regWrite_of_decode rfl]
      exact exec_dEos_of_running (.inl hs)
    obtain ⟨k, s', hrun, hfed⟩ := scan_to_fed (s := { s.withAgenda [] with dec := { s.dec with eos := true } })
      hs hout (.inr ⟨rfl, rfl, rfl⟩) hn hv hb hlegal fun t _ hh => step_of_noAct (by rw [hh]; rfl)
    exact ⟨k + 1, s', core_run_succ hstep hrun, hfed⟩
  | cons b rest =>
    refine scan_to_fed hs hout (.inl ⟨he, ha⟩) hn hv hb hlegal fun t ht hh => ?_
    have hi : t.dec.inReady = false := by simp [Decoder.inReady, ht]
    exact step_of_blocked (by rw [hh, ha]; rfl) (by simp [blocked, hi] : blocked (.inPush b) t = true)

/-- From IDLE with a legal tree, `D_START`, the bytes and `D_EOS` give what `decode_bits` gives. -/
theorem decoder_run_from_idle (hi : s.dec.state = .idle) (hout : s.host.outReady = true)
    (hn : s.dec.nnodes.toNat ≤ 512) (hroot : s.dec.root.toNat < s.dec.nnodes.toNat)
    (hlegal : ∀ i : NodeIdx, i.toNat < s.dec.nnodes.toNat → nodeOk (s.dec.tmRead i) s.dec.nnodes = true)
    (ha : s.host.agenda = .regWrite 0x0#4 1#32 :: bytes.map .inPush ++ [.regWrite 0x0#4 2#32]) :
    ∃ k, ∃ s' : State, core.run k s = .next s' ∧
      EndsWith s'.dec (decodeBits s.dec.tmRead s.dec.root (bytes.flatMap streamBits)) := by
  rw [List.cons_append] at ha
  have htree : s.dec.noTree = false := Bool.eq_false_iff.2 fun h => by
    obtain h0 | hge := Decoder.noTree_iff.1 h
    · simp [h0] at hroot
    · omega
  have hstep : step s = .next { s.withAgenda (bytes.map .inPush ++ [.regWrite 0x0#4 2#32]) with
      dec := { s.dec.initRun with state := .validate } } := by
    rw [step_of_agenda_cons ha rfl, perform_regWrite_of_decode rfl]
    exact exec_dStart_of_tree hi htree
  obtain ⟨j, t, hscan, hfed, hres⟩ := validate_to_fed (bytes := bytes)
    (s := { s.withAgenda (bytes.map .inPush ++ [.regWrite 0x0#4 2#32]) with
      dec := { s.dec.initRun with state := .validate } })
    rfl hout rfl rfl hn (Nat.zero_lt_of_lt hroot) rfl hlegal
  obtain ⟨k, s', -, hrun, -, hend⟩ := fed_run hfed
  rw [hres, runResult_of_start rfl rfl rfl rfl] at hend
  exact ⟨_, s', core_run_succ hstep (core_run_add hscan hrun), hend⟩

end Sys2Proof.Machine
end

section
/-! The obligations about the round trip. -/

namespace Sys2Proof.Machine

open Sys2Proof.Reference

/-- Settles O58: the codes walk back to the payload, and each padding bit adds at most one symbol, in a single-leaf tree exactly one. -/
theorem roundTripGivesThePayloadFirst : Obligations.RoundTripGivesThePayloadFirst := by
  intro T r t table payload hrep htab hsym
  refine ⟨by rw [packRun_of_known fun y hy => htab.len_ne_zero (hsym y hy)], ?_⟩
  rw [decodeBits_artifact hrep htab hsym]
  obtain ⟨extra, e, hres, hlen, hend⟩ :=
    walk_zeros (T := T) (r := r) (padLength (payloadBits table payload)) (cur := r) (mid := false) (out := payload) (by simp)
  refine ⟨extra, e, hres, hlen, hlen.trans (padLength_le _), hend, fun hwhole => ?_, ?_⟩
  · rw [padLength_of_whole hwhole, List.replicate_zero, walk_nil (by simp)] at hres
    rw [padLength_of_whole hwhole] at hlen
    exact ⟨List.length_eq_zero_iff.1 (Nat.le_zero.1 hlen), (Prod.mk.inj hres).2.symm⟩
  · rintro y rfl
    obtain ⟨htag, rfl⟩ := hrep
    rw [walk_lone_zeros htag] at hres
    obtain ⟨hout, rfl⟩ := Prod.mk.inj hres
    exact ⟨rfl, hout ▸ payload_append_padding_of_leaf htab hsym⟩

/-- Settles O59: the bitpacker's run gives the artifact, the decoder's run gives what `decode_bits` makes of it, and O58 says what that is. -/
theorem machineRoundTripGivesThePayloadFirst : Obligations.MachineRoundTripGivesThePayloadFirst := by
  intro s t payload hdi hpi hout hbyte hn hroot hlegal hrep htab hsym ha
  obtain ⟨hnone, extra, e, hdec, -, hextra, hend, hwhole, hleaf⟩ :=
    roundTripGivesThePayloadFirst _ _ t _ payload hrep htab hsym
  obtain ⟨k, s₁, hrun, hframe, hbytes, hpack⟩ := pack_run_from_idle hpi (Decoder.canStep_of_idle hdi _) hbyte ha
  rw [hnone] at hpack
  obtain ⟨hdone, -, -⟩ := hpack
  refine ⟨k, s₁, hrun, hdone, ?_⟩
  obtain ⟨k', s₂, hrun', hend'⟩ := decoder_run_from_idle (bytes := s₁.pack.bytes)
    (s := s₁.withAgenda (.regWrite 0x0#4 1#32 :: s₁.pack.bytes.map .inPush ++ [.regWrite 0x0#4 2#32]))
    (by simpa [hframe.dec] using hdi) (by simpa [hframe.outReady] using hout) (by simpa [hframe.dec] using hn)
    (by simpa [hframe.dec] using hroot) (by simpa [hframe.dec] using hlegal) rfl
  rw [State.withAgenda_dec, hframe.dec, hbytes, hdec] at hend'
  obtain ⟨hout', hshows, hcorrupt⟩ := hend'
  replace hout' : payload ++ extra = s₂.dec.out := hout'
  refine ⟨k', s₂, hrun', ⟨extra, hout'⟩, ?_, ?_, fun h8 => ?_, ?_, ?_⟩
  · rw [← hout', List.length_append]
    omega
  · obtain rfl | ⟨i, rfl⟩ := hend
    · exact .inl hshows
    · obtain ⟨hs, he, -⟩ := hshows
      exact .inr ⟨hs, he, hcorrupt he hs, fun h8 => RunEnd.noConfusion (hwhole h8).2⟩
  · rw [← hout', (hwhole h8).1, List.append_nil]
  · rintro rfl
    exact ⟨hbytes.trans (congrArg Prod.fst (packRun_nil _)), by rw [← hout', (hwhole rfl).1]; rfl⟩
  · intro y hy
    obtain ⟨rfl, hrep'⟩ := hleaf y hy
    exact ⟨hshows, hout' ▸ hrep'⟩

end Sys2Proof.Machine
end
